-- ==== Sys2Proof/Word.lean ====
section
/-!
DEFINITION. The machine's values (spec/00_scope.md R5, R7): 16-bit words, 8-bit addresses, 3-bit register indices.
-/

namespace Sys2Proof

/-- A register, a memory cell or an instruction: 16 bits (R5 WORD, R7). -/
abbrev Word := BitVec 16

/-- An instruction-memory or data-memory address, and the program counter's value: 0 to 255 (R5, R24, R41). -/
abbrev Addr := BitVec 8

/-- The 8-bit immediate field (R65). It occupies the same instruction bits as an address. -/
abbrev Imm := BitVec 8

/-- A register index: 0 to 7 (R5 REGIDX, R22). -/
abbrev RegIdx := BitVec 3

end Sys2Proof
end

