-- ==== Sys2Proof/Syntax.lean ====
section
/-!
DEFINITION. The instruction set: one constructor per row of spec/opcode_table.json (spec/30_encoding.md R66, R67, R75), with the operands of
its format (R63).
-/

namespace Sys2Proof

/-- The five formats of R63, named as the spec names them. -/
inductive Format where
  /-- RR: ra, rb. -/
  | rr
  /-- R: ra. -/
  | r
  /-- RI: ra and imm8 or addr8. -/
  | ri
  /-- A: addr8. -/
  | a
  /-- Z: no operand. -/
  | z
  deriving DecidableEq, Repr

/-- A decoded instruction. `reserved` is the table's row for opcode values 16 to 31, of which no operand is decoded (R152): the word itself
stands in `ir` (R81). -/
inductive Instr where
  | mov (ra rb : RegIdx)
  | add (ra rb : RegIdx)
  | sub (ra rb : RegIdx)
  | and (ra rb : RegIdx)
  | or (ra rb : RegIdx)
  | sl (ra : RegIdx)
  | sr (ra : RegIdx)
  | sra (ra : RegIdx)
  | ldl (ra : RegIdx) (imm8 : Imm)
  | ldh (ra : RegIdx) (imm8 : Imm)
  | cmp (ra rb : RegIdx)
  | je (addr8 : Addr)
  | jmp (addr8 : Addr)
  | ld (ra : RegIdx) (addr8 : Addr)
  | st (ra : RegIdx) (addr8 : Addr)
  | hlt
  | reserved
  deriving DecidableEq, Repr

/-- The row of spec/opcode_table.json a constructor stands for, letter for letter. -/
def Instr.mnemonic : Instr → String
  | .mov _ _ => "Mov"
  | .add _ _ => "Add"
  | .sub _ _ => "Sub"
  | .and _ _ => "And"
  | .or _ _ => "Or"
  | .sl _ => "Sl"
  | .sr _ => "Sr"
  | .sra _ => "Sra"
  | .ldl _ _ => "Ldl"
  | .ldh _ _ => "Ldh"
  | .cmp _ _ => "Cmp"
  | .je _ => "Je"
  | .jmp _ => "Jmp"
  | .ld _ _ => "Ld"
  | .st _ _ => "St"
  | .hlt => "Hlt"
  | .reserved => "RESERVED"

/-- The opcode value of a defined instruction (R66); a reserved word has none of its own. -/
def Instr.opcode : Instr → Option Nat
  | .mov _ _ => some 0
  | .add _ _ => some 1
  | .sub _ _ => some 2
  | .and _ _ => some 3
  | .or _ _ => some 4
  | .sl _ => some 5
  | .sr _ => some 6
  | .sra _ => some 7
  | .ldl _ _ => some 8
  | .ldh _ _ => some 9
  | .cmp _ _ => some 10
  | .je _ => some 11
  | .jmp _ => some 12
  | .ld _ _ => some 13
  | .st _ _ => some 14
  | .hlt => some 15
  | .reserved => none

/-- The register an instruction writes: at most one, and only the one named by `ra` (R23, R84). -/
def Instr.destReg : Instr → Option RegIdx
  | .mov ra _ => some ra
  | .add ra _ => some ra
  | .sub ra _ => some ra
  | .and ra _ => some ra
  | .or ra _ => some ra
  | .sl ra => some ra
  | .sr ra => some ra
  | .sra ra => some ra
  | .ldl ra _ => some ra
  | .ldh ra _ => some ra
  | .cmp _ _ => none
  | .je _ => none
  | .jmp _ => none
  | .ld ra _ => some ra
  | .st _ _ => none
  | .hlt => none
  | .reserved => none

/-- The registers an instruction reads (R23). Ldl and Ldh read `x[ra]` to keep one byte of it. -/
def Instr.srcRegs : Instr → List RegIdx
  | .mov _ rb => [rb]
  | .add ra rb => [ra, rb]
  | .sub ra rb => [ra, rb]
  | .and ra rb => [ra, rb]
  | .or ra rb => [ra, rb]
  | .sl ra => [ra]
  | .sr ra => [ra]
  | .sra ra => [ra]
  | .ldl ra _ => [ra]
  | .ldh ra _ => [ra]
  | .cmp ra rb => [ra, rb]
  | .je _ => []
  | .jmp _ => []
  | .ld _ _ => []
  | .st ra _ => [ra]
  | .hlt => []
  | .reserved => []

/-- The data-memory cell an instruction writes: St's `addr8`, and nothing else (R44, R84, R142). -/
def Instr.storeAddr : Instr → Option Addr
  | .mov _ _ => none
  | .add _ _ => none
  | .sub _ _ => none
  | .and _ _ => none
  | .or _ _ => none
  | .sl _ => none
  | .sr _ => none
  | .sra _ => none
  | .ldl _ _ => none
  | .ldh _ _ => none
  | .cmp _ _ => none
  | .je _ => none
  | .jmp _ => none
  | .ld _ _ => none
  | .st _ addr8 => some addr8
  | .hlt => none
  | .reserved => none

/-- Cmp, the only writer of the equality flag (R29, R130). -/
def Instr.isCmp : Instr → Bool
  | .mov _ _ => false
  | .add _ _ => false
  | .sub _ _ => false
  | .and _ _ => false
  | .or _ _ => false
  | .sl _ => false
  | .sr _ => false
  | .sra _ => false
  | .ldl _ _ => false
  | .ldh _ _ => false
  | .cmp _ _ => true
  | .je _ => false
  | .jmp _ => false
  | .ld _ _ => false
  | .st _ _ => false
  | .hlt => false
  | .reserved => false

end Sys2Proof
end

