-- ==== Sys2Proof/WellFormed.lean ====
section
/-!
DEFINITION. Which instructions are well formed: the 16 defined ones, for which the encoder produces a word (spec/30_encoding.md R66, R79). The
operands need no check of their own: an index of 3 bits and an immediate of 8 bits cannot be out of range (R22, R43, R65).
-/

namespace Sys2Proof

/-- A defined instruction, opcode 0 to 15. The reserved row is a decoding outcome with no canonical word: "every word the encoder produces has
bit 15 clear" (R79). -/
def Instr.wellFormed (i : Instr) : Bool :=
  i.opcode.isSome

/-- An instruction that goes through fetch, increment and execute: opcodes 0 to 14, Hlt and the reserved opcodes left out (R80, R84). -/
def Instr.executes (i : Instr) : Bool :=
  match i.opcode with
  | some op => decide (op < 15)
  | none => false

end Sys2Proof
end

