-- ==== Sys2Proof/Decode.lean ====
section
/-!
DEFINITION. From a 16-bit word to an instruction and back (spec/30_encoding.md). The decoder is total (R76): a word with bit 15 set is the
instruction `reserved`, every other word one of the 16 defined instructions. The encoder is the five functions of R69 to R73, restricted as R79
says, and `encode` gives each instruction to the function of its format.
-/

namespace Sys2Proof

/-- The fields every word is cut into (R62). `imm8` is also `addr8`: the same bits. -/
structure Fields where
  op : BitVec 5
  ra : RegIdx
  rb : RegIdx
  imm8 : Imm
  deriving DecidableEq, Repr

/-- Decode of the fields, the same way for every word (R62). -/
def decodeFields (ir : Word) : Fields where
  op := ir.extractLsb' 11 5
  ra := ir.extractLsb' 8 3
  rb := ir.extractLsb' 5 3
  imm8 := ir.extractLsb' 0 8

/-- The interpretation of the fields that an opcode value selects; the fields it does not name are ignored (R64, R66, R67, R68; DEDUCED by
the spec itself, D18, log entry 13, unsafe against a machine that rejects such words). Values 16 to 31 are reserved (R75). -/
def instrOf (opcode : Nat) (f : Fields) : Instr :=
  match opcode with
  | 0 => .mov f.ra f.rb
  | 1 => .add f.ra f.rb
  | 2 => .sub f.ra f.rb
  | 3 => .and f.ra f.rb
  | 4 => .or f.ra f.rb
  | 5 => .sl f.ra
  | 6 => .sr f.ra
  | 7 => .sra f.ra
  | 8 => .ldl f.ra f.imm8
  | 9 => .ldh f.ra f.imm8
  | 10 => .cmp f.ra f.rb
  | 11 => .je f.imm8
  | 12 => .jmp f.imm8
  | 13 => .ld f.ra f.imm8
  | 14 => .st f.ra f.imm8
  | 15 => .hlt
  | _ => .reserved

/-- The instruction a word stands for (R62, R67). -/
def decode (w : Word) : Instr :=
  instrOf (decodeFields w).op.toNat (decodeFields w)

/-- The host's question to the decoder: the instruction read from a word given as the low `nbits` bits of a number, the rest 0. An instruction
is one cell and has no byte order (R42, R60), so the word is used as it stands; a request for more than 16 bits is refused. DESIGN CHOICE (log
entry 15), safe. -/
def decodeTableWord (nbits w : Nat) : Option Instr :=
  if nbits ≤ 16 then some (decode (BitVec.ofNat 16 (w % 2 ^ nbits))) else none

/-! ## The opcode map as data (R63, R67, R75) -/

/-- One row of R67: a word is the row's when `(w & mask) == match`. -/
structure OpcodeRow where
  mnemonic : String
  pattern : Word
  mask : Word
  deriving DecidableEq, Repr

/-- R67's rows, the reserved row last. -/
def opcodeTable : List OpcodeRow :=
  [⟨"Mov", 0x0000, 0xF800⟩, ⟨"Add", 0x0800, 0xF800⟩, ⟨"Sub", 0x1000, 0xF800⟩, ⟨"And", 0x1800, 0xF800⟩,
   ⟨"Or", 0x2000, 0xF800⟩, ⟨"Sl", 0x2800, 0xF800⟩, ⟨"Sr", 0x3000, 0xF800⟩, ⟨"Sra", 0x3800, 0xF800⟩,
   ⟨"Ldl", 0x4000, 0xF800⟩, ⟨"Ldh", 0x4800, 0xF800⟩, ⟨"Cmp", 0x5000, 0xF800⟩, ⟨"Je", 0x5800, 0xF800⟩,
   ⟨"Jmp", 0x6000, 0xF800⟩, ⟨"Ld", 0x6800, 0xF800⟩, ⟨"St", 0x7000, 0xF800⟩, ⟨"Hlt", 0x7800, 0xF800⟩,
   ⟨"RESERVED", 0x8000, 0x8000⟩]

/-- A word is a row's word (R67). -/
def OpcodeRow.covers (row : OpcodeRow) (w : Word) : Bool :=
  w &&& row.mask == row.pattern

/-- The format of an opcode value (R63); none for a value with no instruction. -/
def formatOf (opcode : Nat) : Option Format :=
  match opcode with
  | 0 => some .rr
  | 1 => some .rr
  | 2 => some .rr
  | 3 => some .rr
  | 4 => some .rr
  | 5 => some .r
  | 6 => some .r
  | 7 => some .r
  | 8 => some .ri
  | 9 => some .ri
  | 10 => some .rr
  | 11 => some .a
  | 12 => some .a
  | 13 => some .ri
  | 14 => some .ri
  | 15 => some .z
  | _ => none

/-- The bits of a word that an instruction of the format uses: all but the ones R68 calls ignored. -/
def usedMask : Format → Word
  | .rr => 0xFFE0
  | .r => 0xFF00
  | .ri => 0xFFFF
  | .a => 0xF8FF
  | .z => 0xF800

/-! ## The encoder (R69 to R73, R79)

The arguments are natural numbers (DESIGN CHOICE, log entry 11, safe); an opcode outside the function's format is refused (D13). -/

/-- Two-register encoder (R69): `opcode<<11 | (ra&7)<<8 | (rb&7)<<5`. -/
def encodeRR (opcode ra rb : Nat) : Option Word :=
  if formatOf opcode = some .rr then
    some (BitVec.ofNat 16 (opcode <<< 11 ||| (ra &&& 7) <<< 8 ||| (rb &&& 7) <<< 5))
  else none

/-- One-register encoder (R70): `opcode<<11 | (ra&7)<<8`. -/
def encodeR (opcode ra : Nat) : Option Word :=
  if formatOf opcode = some .r then
    some (BitVec.ofNat 16 (opcode <<< 11 ||| (ra &&& 7) <<< 8))
  else none

/-- Register-and-immediate encoder (R71): `opcode<<11 | (ra&7)<<8 | (val&0xFF)`. -/
def encodeRI (opcode ra val : Nat) : Option Word :=
  if formatOf opcode = some .ri then
    some (BitVec.ofNat 16 (opcode <<< 11 ||| (ra &&& 7) <<< 8 ||| (val &&& 0xFF)))
  else none

/-- Address-only encoder (R72): `opcode<<11 | (addr&0xFF)`. -/
def encodeA (opcode addr : Nat) : Option Word :=
  if formatOf opcode = some .a then
    some (BitVec.ofNat 16 (opcode <<< 11 ||| (addr &&& 0xFF)))
  else none

/-- Zero-operand encoder (R73): `opcode<<11`. -/
def encodeZ (opcode : Nat) : Option Word :=
  if formatOf opcode = some .z then
    some (BitVec.ofNat 16 (opcode <<< 11))
  else none

/-- The canonical word of an instruction (R67, R69 to R73); none for `reserved`, which the encoder cannot produce (R75, R79). -/
def encode : Instr → Option Word
  | .mov ra rb => encodeRR 0 ra.toNat rb.toNat
  | .add ra rb => encodeRR 1 ra.toNat rb.toNat
  | .sub ra rb => encodeRR 2 ra.toNat rb.toNat
  | .and ra rb => encodeRR 3 ra.toNat rb.toNat
  | .or ra rb => encodeRR 4 ra.toNat rb.toNat
  | .sl ra => encodeR 5 ra.toNat
  | .sr ra => encodeR 6 ra.toNat
  | .sra ra => encodeR 7 ra.toNat
  | .ldl ra imm8 => encodeRI 8 ra.toNat imm8.toNat
  | .ldh ra imm8 => encodeRI 9 ra.toNat imm8.toNat
  | .cmp ra rb => encodeRR 10 ra.toNat rb.toNat
  | .je addr8 => encodeA 11 addr8.toNat
  | .jmp addr8 => encodeA 12 addr8.toNat
  | .ld ra addr8 => encodeRI 13 ra.toNat addr8.toNat
  | .st ra addr8 => encodeRI 14 ra.toNat addr8.toNat
  | .hlt => encodeZ 15
  | .reserved => none

end Sys2Proof
end

