-- ==== Sys2Proof/Config.lean ====
section
/-!
DEFINITION. What the spec fixes once for every machine of this kind (spec/00_scope.md R5). "The ISA leaves nothing to be chosen per
implementation except the policy for reserved opcodes", and the spec decides that policy too (R152, D3), so nothing here is open and there is
no free value.
-/

namespace Sys2Proof.Config

/-- Cells of instruction memory (R5 IMEM_SIZE). -/
def imemSize : Nat := 256

/-- Cells of data memory (R5 DMEM_SIZE). -/
def dmemSize : Nat := 256

/-- Where execution starts (R5, R182). -/
def resetVector : Addr := 0

/-- What a cell of either memory holds until something is written to it (R34, R35). -/
def unwrittenCell : Word := 0

/-- What every general register holds at reset (R34). -/
def resetRegister : Word := 0

end Sys2Proof.Config
end

