-- ==== Sys2Proof/Machine/State.lean ====
section
/-!
DEFINITION. Everything the spec gives the machine, as plain data (spec/10_state.md R20), its value at reset (R34), and the reasons a step can
stop.
-/

namespace Sys2Proof.Machine

/-- A memory of 256 cells of 16 bits (R40, R41), as the list of its non-zero cells: an address is a cell's number and an unlisted cell holds
`Config.unwrittenCell`. The unit is the whole 16-bit cell, because the machine has no byte-addressed view (R42, D11).
DESIGN CHOICE (log entries 2 and 3), safe but for what an unwritten instruction cell holds (D8). -/
abbrev Memory := List (Nat × Word)

/-- The causes of the fault record (R162). -/
inductive Cause where
  /-- Code 1: the opcode field of the word is 16 to 31. -/
  | illegalOpcode
  deriving DecidableEq, Repr

/-- The fault record (R161, R162): the cause, the address of the faulting word, and the word. -/
structure FaultRecord where
  cause : Cause
  address : Addr
  word : Word
  deriving DecidableEq, Repr

/-- The run state (R32). The record exists exactly while the machine is Faulted (R161); otherwise the record is "no fault" (R180).
DESIGN CHOICE (log entry 4), safe. -/
inductive RunState where
  | running
  | halted
  | faulted (record : FaultRecord)
  deriving DecidableEq, Repr

/-- One trace event (R91): the address of the instruction just fetched, its word, and registers 0 to 3 before its effect. -/
structure TraceEvent where
  pc : Addr
  ir : Word
  x0 : Word
  x1 : Word
  x2 : Word
  x3 : Word
  deriving DecidableEq, Repr

/-- The state of R20, with the trace of R91 beside it (an output, never read back by any instruction). DESIGN CHOICE (log
entry 5), safe. -/
structure State where
  /-- The 8 general registers (R21). -/
  x : Vector Word 8
  /-- The program counter, 0 to 255 (R24, D1). DESIGN CHOICE (log entry 1), safe. -/
  pc : Addr
  /-- The instruction register (R31). -/
  ir : Word
  /-- The equality flag (R29). -/
  flag : Bool
  /-- Instruction memory (R40, R50). -/
  imem : Memory
  /-- Data memory (R40). -/
  dmem : Memory
  /-- The run state (R32). -/
  run : RunState
  /-- The trace events emitted so far, the newest first (R91). -/
  trace : List TraceEvent
  deriving DecidableEq, Repr

/-- The machine right after reset (R34, R180): every field at the value the spec gives. -/
def State.reset : State where
  x := Vector.replicate 8 Config.resetRegister
  pc := Config.resetVector
  ir := 0
  flag := false
  imem := []
  dmem := []
  run := .running
  trace := []

/-- Why a step stops with no next state. Both constructors say that there is no step at all: "the engine takes no step" from Halted and Faulted
(R32, R80, U10), and the state stays as it was. DESIGN CHOICE (log entry 6), safe. -/
inductive Fault where
  /-- Raised by `step` on a machine whose run has ended at a Hlt word (R32, R86). Safe: the machine stays as it is, and no claim about a further
  step can be proved. -/
  | runHalted
  /-- Raised by `step` on a machine whose run has ended with the fault recorded (R32, R161). Safe, for the same reason. -/
  | runFaulted (record : FaultRecord)
  deriving DecidableEq, Repr

/-- Why an instruction has no meaning in the model. -/
inductive Refusal where
  /-- For an arm of `exec` whose instruction has no meaning yet. No arm raises it: every row of the opcode table has its meaning. Safe. -/
  | notModelled (mnemonic : String)
  deriving DecidableEq, Repr

end Sys2Proof.Machine
end

