-- ==== Sys2Proof/Machine/Ops.lean ====
section
/-!
DEFINITION. The named operations over memory, registers and the machine, which the instructions' meanings and the step are written with
(spec/00_scope.md R8, spec/20_memory.md R46, spec/40_execution_cycle.md R80 to R91, spec/60_exceptions.md R161).
-/

namespace Sys2Proof.Machine

/-! ## Memories -/

/-- The content of a cell (R46): the listed word, or what an unwritten cell holds. -/
def Memory.read (m : Memory) (a : Addr) : Word :=
  match m with
  | [] => Config.unwrittenCell
  | (k, v) :: rest => if k = a.toNat then v else Memory.read rest a

/-- The memory with a cell back at what an unwritten cell holds. -/
def Memory.clear (m : Memory) (a : Addr) : Memory :=
  m.filter fun c => c.1 ≠ a.toNat

/-- A cell listed before the first one with a higher address. -/
def Memory.insert (m : Memory) (a : Addr) (v : Word) : Memory :=
  match m with
  | [] => [(a.toNat, v)]
  | (k, u) :: rest => if a.toNat < k then (a.toNat, v) :: (k, u) :: rest else (k, u) :: Memory.insert rest a v

/-- A write changes exactly the addressed cell (R46). Writing what an unwritten cell holds unlists the cell, so that equal memories are equal
lists. -/
def Memory.write (m : Memory) (a : Addr) (v : Word) : Memory :=
  if v = Config.unwrittenCell then m.clear a else (m.clear a).insert a v

/-- The canonical form of a memory of `size` cells: addresses strictly rising and below `size`, no cell listed that reads as an unlisted one. -/
def Memory.wf (m : Memory) (size : Nat) : Bool :=
  decide (m.Pairwise fun c d => c.1 < d.1) && m.all fun c => decide (c.1 < size) && decide (c.2 ≠ Config.unwrittenCell)

/-! ## Registers -/

/-- `x[i]` (R8). Every register is ordinary storage; none is hardwired (R21). -/
def State.readReg (s : State) (r : RegIdx) : Word :=
  s.x[r.toNat]'r.isLt

/-- `x[i] <- v` (R8). -/
def State.writeReg (s : State) (r : RegIdx) (v : Word) : State :=
  { s with x := s.x.set r.toNat v r.isLt }

/-! ## Data memory (R8, R46) -/

/-- `MemRead(a, 1)`. -/
def State.memRead (s : State) (a : Addr) : Word :=
  s.dmem.read a

/-- `MemWrite(a, 1, v)`. -/
def State.memWrite (s : State) (a : Addr) (v : Word) : State :=
  { s with dmem := s.dmem.write a v }

/-! ## Instruction memory and fetch -/

/-- `IFetch(a)` (R8, R46). -/
def State.ifetch (s : State) (a : Addr) : Word :=
  s.imem.read a

/-- Fetch (R81): the word at `pc` goes into `ir`, on every step, Hlt and reserved words included (D2).
DEDUCED by the spec itself (log entry 9), unsafe for claims about `ir` after the end of a run. -/
def State.fetch (s : State) : State :=
  { s with ir := s.ifetch s.pc }

/-- One cell of instruction memory written by the host's setup pass (R88); no instruction has a path to it (R48, R50). -/
def State.placeWord (s : State) (a : Addr) (w : Word) : State :=
  { s with imem := s.imem.write a w }

/-! ## Program counter and flag -/

/-- `pc <- (pc + 1) mod 256` (R26, R83). -/
def State.increment (s : State) : State :=
  { s with pc := s.pc + 1 }

/-- `pc <- target`: replaces the incremented value (R83, R130). -/
def State.jumpTo (s : State) (target : Addr) : State :=
  { s with pc := target }

/-- `if b then pc <- target`: the incremented value stays where `b` is false (R132). -/
def State.jumpIf (s : State) (b : Bool) (target : Addr) : State :=
  { s with pc := if b then target else s.pc }

/-- `flag <- b` (R8). -/
def State.setFlag (s : State) (b : Bool) : State :=
  { s with flag := b }

/-! ## The part every executed instruction shares -/

/-- The trace event of the instruction just fetched (R91): `pc` not yet incremented, registers before the effect. -/
def State.traceEvent (s : State) : TraceEvent where
  pc := s.pc
  ir := s.ir
  x0 := s.readReg 0
  x1 := s.readReg 1
  x2 := s.readReg 2
  x3 := s.readReg 3

/-- The trace event is emitted (R91). -/
def State.emitTrace (s : State) : State :=
  { s with trace := s.traceEvent :: s.trace }

/-- What happens between fetch and effect of an instruction of opcode 0 to 14 (R80): the trace event, then the increment.
DESIGN CHOICE (log entry 14), safe: it stands in each meaning, not in the step. -/
def State.beginExecute (s : State) : State :=
  s.emitTrace.increment

/-! ## The ends of a run -/

/-- Hlt's effect (R86, R151): `run <- Halted`; `pc` keeps the Hlt word's address. -/
def State.halt (s : State) : State :=
  { s with run := .halted }

/-- The fault record an illegal opcode leaves (R161, R162): cause 1, the address in `pc`, the word in `ir`. -/
def State.illegalOpcodeRecord (s : State) : FaultRecord where
  cause := .illegalOpcode
  address := s.pc
  word := s.ir

/-- Taking the one exception, `raise IllegalOpcode(w)` with `w` in `ir` (R161): `run <- Faulted` with the record, and nothing else. There is no
vector, no saved register and no return (R161, R164). DEDUCED by the spec itself (D3, D4; log entry 10), unsafe against the other policy the source
allows. -/
def State.raiseIllegalOpcode (s : State) : State :=
  { s with run := .faulted s.illegalOpcodeRecord }

/-- Why the engine takes no step, if it takes none: a step is defined when `run == Running` and not otherwise (R32, R80). -/
def State.endOfRun (s : State) : Option Fault :=
  match s.run with
  | .running => none
  | .halted => some .runHalted
  | .faulted record => some (.runFaulted record)

/-- No step has been taken: the machine is Running and no instruction has been executed, so no trace event has been emitted (R88, R91).
DESIGN CHOICE (log entry 8), safe. -/
def State.beforeFirstStep (s : State) : Bool :=
  decide (s.run = .running) && s.trace.isEmpty

end Sys2Proof.Machine
end

