-- ==== Sys2Proof/Machine/Flags.lean ====
section
/-!
DEFINITION. The one flag computation of the machine (spec/10_state.md R29, spec/44_compare_branch.md R131). There is no carry, overflow, sign or
zero flag (R100, R110).
-/

namespace Sys2Proof.Machine

/-- `1 if a == b else 0`, over all 16 bits (R131). -/
def equalFlag (a b : Word) : Bool :=
  decide (a = b)

end Sys2Proof.Machine
end

