-- ==== Sys2Proof/Machine/Operands.lean ====
section
/-!
DEFINITION. What the operand forms compute (spec/30_encoding.md R65): the byte inserts of Ldl and Ldh. Register operands are `State.readReg`;
the absolute addresses of Je, Jmp, Ld and St are used as they stand (R65, R140).
-/

namespace Sys2Proof.Machine

/-- `(v & 0xFF00) | imm8`: the low byte replaced, the high byte kept (R121). -/
def withLowByte (v : Word) (imm8 : Imm) : Word :=
  (v &&& 0xFF00) ||| imm8.setWidth 16

/-- `(imm8 << 8) | (v & 0x00FF)`: the high byte replaced, the low byte kept (R122). -/
def withHighByte (v : Word) (imm8 : Imm) : Word :=
  (imm8.setWidth 16 <<< 8) ||| (v &&& 0x00FF)

end Sys2Proof.Machine
end

