-- ==== Sys2Proof/Machine/CompareBranch.lean ====
section
/-!
DEFINITION. Cmp, Je, Jmp (spec/44_compare_branch.md). A jump's write replaces the incremented `pc` (R83, R130).
-/

namespace Sys2Proof.Machine

/-- Cmp (R131): `flag <- 1 if x[ra] == x[rb] else 0`. -/
def execCmp (ra rb : RegIdx) (s : State) : Host.Outcome State Fault Refusal :=
  .next (s.beginExecute.setFlag (equalFlag (s.readReg ra) (s.readReg rb)))

/-- Je (R132): `if flag == 1 then pc <- addr8`. -/
def execJe (addr8 : Addr) (s : State) : Host.Outcome State Fault Refusal :=
  .next (s.beginExecute.jumpIf s.flag addr8)

/-- Jmp (R133): `pc <- addr8`. -/
def execJmp (addr8 : Addr) (s : State) : Host.Outcome State Fault Refusal :=
  .next (s.beginExecute.jumpTo addr8)

end Sys2Proof.Machine
end

