-- ==== Sys2Proof/Machine/HaltReserved.lean ====
section
/-!
DEFINITION. Hlt and the reserved opcodes (spec/46_halt_reserved.md): the two instructions that go through fetch only, with no trace event and
no increment (R80, R86, R87).
-/

namespace Sys2Proof.Machine

/-- Hlt (R151): `run <- Halted`. -/
def execHlt (s : State) : Host.Outcome State Fault Refusal :=
  .next s.halt

/-- A reserved opcode (R152): `raise IllegalOpcode(w)`, the fault entry of R161, for the word fetched into `ir`. -/
def execReserved (s : State) : Host.Outcome State Fault Refusal :=
  .next s.raiseIllegalOpcode

end Sys2Proof.Machine
end

