-- ==== Sys2Proof/Machine/LoadImmediate.lean ====
section
/-!
DEFINITION. Ldl, Ldh (spec/43_load_immediate.md): each replaces one byte of `x[ra]` and keeps the other (R120).
-/

namespace Sys2Proof.Machine

/-- Ldl (R121): `x[ra] <- (x[ra] & 0xFF00) | imm8`. -/
def execLdl (ra : RegIdx) (imm8 : Imm) (s : State) : Host.Outcome State Fault Refusal :=
  .next (s.beginExecute.writeReg ra (withLowByte (s.readReg ra) imm8))

/-- Ldh (R122): `x[ra] <- (imm8 << 8) | (x[ra] & 0x00FF)`. -/
def execLdh (ra : RegIdx) (imm8 : Imm) (s : State) : Host.Outcome State Fault Refusal :=
  .next (s.beginExecute.writeReg ra (withHighByte (s.readReg ra) imm8))

end Sys2Proof.Machine
end

