-- ==== Sys2Proof/Machine/LoadStore.lean ====
section
/-!
DEFINITION. Ld, St (spec/45_load_store.md): one whole cell of data memory at the absolute address in the word (R140).
-/

namespace Sys2Proof.Machine

/-- Ld (R141): `x[ra] <- MemRead(addr8, 1)`. -/
def execLd (ra : RegIdx) (addr8 : Addr) (s : State) : Host.Outcome State Fault Refusal :=
  .next (s.beginExecute.writeReg ra (s.memRead addr8))

/-- St (R142): `MemWrite(addr8, 1, x[ra])`. -/
def execSt (ra : RegIdx) (addr8 : Addr) (s : State) : Host.Outcome State Fault Refusal :=
  .next (s.beginExecute.memWrite addr8 (s.readReg ra))

end Sys2Proof.Machine
end

