-- ==== Sys2Proof/Machine/MoveAlu.lean ====
section
/-!
DEFINITION. Mov, Add, Sub, And, Or (spec/41_move_alu.md). Each reads its operands as they were before the instruction and writes `x[ra]` after
the increment (R8, R83, R100).
-/

namespace Sys2Proof.Machine

/-- Mov (R101): `x[ra] <- x[rb]`. -/
def execMov (ra rb : RegIdx) (s : State) : Host.Outcome State Fault Refusal :=
  .next (s.beginExecute.writeReg ra (s.readReg rb))

/-- Add (R102): `x[ra] <- (x[ra] + x[rb]) mod 65536`. -/
def execAdd (ra rb : RegIdx) (s : State) : Host.Outcome State Fault Refusal :=
  .next (s.beginExecute.writeReg ra (s.readReg ra + s.readReg rb))

/-- Sub (R103): `x[ra] <- (x[ra] - x[rb]) mod 65536`. -/
def execSub (ra rb : RegIdx) (s : State) : Host.Outcome State Fault Refusal :=
  .next (s.beginExecute.writeReg ra (s.readReg ra - s.readReg rb))

/-- And (R104): `x[ra] <- x[ra] & x[rb]`. -/
def execAnd (ra rb : RegIdx) (s : State) : Host.Outcome State Fault Refusal :=
  .next (s.beginExecute.writeReg ra (s.readReg ra &&& s.readReg rb))

/-- Or (R105): `x[ra] <- x[ra] | x[rb]`. -/
def execOr (ra rb : RegIdx) (s : State) : Host.Outcome State Fault Refusal :=
  .next (s.beginExecute.writeReg ra (s.readReg ra ||| s.readReg rb))

end Sys2Proof.Machine
end

