-- ==== Sys2Proof/Machine/Shift.lean ====
section
/-!
DEFINITION. Sl, Sr, Sra (spec/42_shift.md): shifts by exactly one bit, no flag written (R110).
-/

namespace Sys2Proof.Machine

/-- Sl (R111): `x[ra] <- (x[ra] << 1) mod 65536`. -/
def execSl (ra : RegIdx) (s : State) : Host.Outcome State Fault Refusal :=
  .next (s.beginExecute.writeReg ra (s.readReg ra <<< 1))

/-- Sr (R112): `x[ra] <- x[ra] >> 1`. -/
def execSr (ra : RegIdx) (s : State) : Host.Outcome State Fault Refusal :=
  .next (s.beginExecute.writeReg ra (s.readReg ra >>> 1))

/-- Sra (R113): `x[ra] <- (x[ra] & 0x8000) | (x[ra] >> 1)`. -/
def execSra (ra : RegIdx) (s : State) : Host.Outcome State Fault Refusal :=
  .next (s.beginExecute.writeReg ra ((s.readReg ra &&& 0x8000) ||| (s.readReg ra >>> 1)))

end Sys2Proof.Machine
end

