-- ==== Sys2Proof/Machine/Dispatch.lean ====
section
/-!
DEFINITION. What each instruction does once its word stands in `ir` (spec/40_execution_cycle.md R80, R84): one arm per row of the opcode table.
-/

namespace Sys2Proof.Machine

/-- Everything of R80's step that follows decode, for the decoded instruction. -/
def exec (i : Instr) (s : State) : Host.Outcome State Fault Refusal :=
  match i with
  | .mov ra rb => Sys2Proof.Machine.execMov ra rb s
  | .add ra rb => Sys2Proof.Machine.execAdd ra rb s
  | .sub ra rb => Sys2Proof.Machine.execSub ra rb s
  | .and ra rb => Sys2Proof.Machine.execAnd ra rb s
  | .or ra rb => Sys2Proof.Machine.execOr ra rb s
  | .sl ra => Sys2Proof.Machine.execSl ra s
  | .sr ra => Sys2Proof.Machine.execSr ra s
  | .sra ra => Sys2Proof.Machine.execSra ra s
  | .ldl ra imm8 => Sys2Proof.Machine.execLdl ra imm8 s
  | .ldh ra imm8 => Sys2Proof.Machine.execLdh ra imm8 s
  | .cmp ra rb => Sys2Proof.Machine.execCmp ra rb s
  | .je addr8 => Sys2Proof.Machine.execJe addr8 s
  | .jmp addr8 => Sys2Proof.Machine.execJmp addr8 s
  | .ld ra addr8 => Sys2Proof.Machine.execLd ra addr8 s
  | .st ra addr8 => Sys2Proof.Machine.execSt ra addr8 s
  | .hlt => Sys2Proof.Machine.execHlt s
  | .reserved => Sys2Proof.Machine.execReserved s

end Sys2Proof.Machine
end

