-- ==== Sys2Proof/Machine/Step.lean ====
section
/-!
DEFINITION. One step of the engine (spec/40_execution_cycle.md R80) and the placing of one word where the next step fetches it.
-/

namespace Sys2Proof.Machine

/-- One step (R80): none unless the machine is Running (R32); otherwise fetch into `ir` (R81), decode `ir` (R62), and do the instruction. -/
def step (s : State) : Host.Outcome State Fault Refusal :=
  match s.endOfRun with
  | some reason => .fault reason
  | none => exec (decode s.fetch.ir) s.fetch

/-- The state with one instruction word at the address the next step fetches from, on a machine that takes that step. It stands for the host's
`load` of one word (R88). DESIGN CHOICE (log entry 7), safe. -/
def State.withFetchWord (s : State) (nbits w : Nat) : State :=
  { s.placeWord s.pc (BitVec.ofNat 16 (w % 2 ^ nbits)) with run := .running }

end Sys2Proof.Machine
end

