-- ==== Sys2Proof/Machine/HostInterface.lean ====
section
/-!
DEFINITION. What the host may do to the machine (spec/40_execution_cycle.md R88 to R92, spec/70_reset_and_hazards.md R180): reset, load before
the first step, run, and read after the end. None of it is a step of the engine.
-/

namespace Sys2Proof.Machine

/-! ## Reset -/

/-- The reset input (R92 (e), R180): the fresh machine, whatever the state was; instruction memory and the fault record included. -/
def resetInput (_s : State) : State :=
  State.reset

/-! ## The setup pass -/

/-- Why a load is refused; a refused load writes nothing (R88, D7). -/
inductive LoadRefusal where
  /-- `base` is above 255, or the words go past address 255: a load does not wrap (D7). -/
  | outOfBounds
  /-- A step has been taken: instruction memory is "read-only during execution" (R50, R88). -/
  | runStarted
  deriving DecidableEq, Repr

/-- What a load answers. -/
inductive LoadResult where
  | loaded (s : State)
  | refused (why : LoadRefusal)
  deriving DecidableEq, Repr

/-- `IMEM[base + i] <- words[i]`, for each word in turn (R88). -/
def placeWords (words : List Word) (base : Nat) (s : State) : State :=
  match words with
  | [] => s
  | w :: rest => placeWords rest (base + 1) (s.placeWord (BitVec.ofNat 8 base) w)

/-- `load(words, base)` (R88). The words are not checked; several loads may form one setup pass. Bounds
and refusals: D7, DESIGN CHOICE of the reading in log entry 8, safe. -/
def load (words : List Word) (base : Nat) (s : State) : LoadResult :=
  if s.beforeFirstStep then
    if base < Config.imemSize ∧ base + words.length ≤ Config.imemSize then .loaded (placeWords words base s)
    else .refused .outOfBounds
  else .refused .runStarted

/-! ## The run -/

/-- What `run()` answers within a number of steps (R89). `outOfFuel` is no end of a run: the run goes on (R87, U9).
DESIGN CHOICE (log entry 12), safe. -/
inductive RunResult where
  | success (s : State)
  | failure (record : FaultRecord) (s : State)
  | outOfFuel (s : State)
  deriving DecidableEq, Repr

/-- `run()`: the step of R80 repeated while `run == Running` (R89), for at most `fuel` steps. The host invokes it once,
on a machine that has been reset and set up (R89). On a Halted or Faulted machine it takes no step and answers the same result again (R89, D10). -/
def runEngine (fuel : Nat) (s : State) : RunResult :=
  match s.run with
  | .halted => .success s
  | .faulted record => .failure record s
  | .running =>
    match fuel with
    | 0 => .outOfFuel s
    | n + 1 =>
      match step s with
      | .next t => runEngine n t
      | .fault _ => .outOfFuel s
      | .refused _ => .outOfFuel s

/-! ## Outputs -/

/-- The numeric code of a cause (R162). -/
def causeCode (c : Cause) : Nat :=
  match c with
  | .illegalOpcode => 1

/-- The fault record at the status output, if the machine is Faulted (R161, R92 (g)). -/
def State.faultRecord (s : State) : Option FaultRecord :=
  match s.run with
  | .running => none
  | .halted => none
  | .faulted record => some record

/-- The cause code at the status output: 0 means "no fault" (R162). -/
def State.statusCode (s : State) : Nat :=
  match s.faultRecord with
  | none => 0
  | some record => causeCode record.cause

/-- What the host may read after the end of a run (R90, R92 (i), D16). -/
structure ReadBack where
  x : Vector Word 8
  pc : Addr
  ir : Word
  flag : Bool
  dmem : Memory
  run : RunState
  deriving DecidableEq, Repr

/-- Read-back: nothing during a run, everything after it (R90). It changes no state. -/
def State.readBack (s : State) : Option ReadBack :=
  if s.run = .running then none
  else some { x := s.x, pc := s.pc, ir := s.ir, flag := s.flag, dmem := s.dmem, run := s.run }

/-- The trace output (R92 (h)): the events in execution order, oldest first (R91). -/
def State.traceOutput (s : State) : List TraceEvent :=
  s.trace.reverse

end Sys2Proof.Machine
end

