-- ==== Sys2Proof/Safety.lean ====
section
/-!
DEFINITION. The terms claims are stated in: executions, what an instruction leaves alone, the machine's invariant, and what a safe run is.
-/

namespace Sys2Proof.Machine

/-- `Run s is t`: from `s`, steps (R80) that fetch and do the instructions `is`, in order, lead to `t`. -/
inductive Run : State → List Instr → State → Prop where
  | nil (s : State) : Run s [] s
  | cons {s t u : State} {is : List Instr} (first : step s = .next t) (rest : Run t is u) :
      Run s (decode (s.ifetch s.pc) :: is) u

/-- What stays as it was when an instruction may write the register `rd` and the data cell `ad` and nothing else but the flag, `pc`, the run state and
the trace (R84): every other register, every other data cell, all of instruction memory, and `ir`. -/
structure Unchanged (rd : Option RegIdx) (ad : Option Addr) (s t : State) : Prop where
  regs : ∀ r, rd ≠ some r → t.readReg r = s.readReg r
  data : ∀ a, ad ≠ some a → t.memRead a = s.memRead a
  imem : t.imem = s.imem
  ir : t.ir = s.ir

/-- What every register or memory instruction does besides its own effect (R80, R83, R100, R110): the next address, the flag and the run state
kept, one trace event. -/
structure Sequential (s t : State) : Prop where
  pc : t.pc.toNat = (s.pc.toNat + 1) % 256
  flag : t.flag = s.flag
  run : t.run = s.run
  trace : t.trace = s.traceEvent :: s.trace

/-- The address of the next instruction after `i` at address `s.pc` (the table of R134); for Hlt and a reserved word, where `pc` stays (R28). -/
def nextAddress (i : Instr) (s : State) : Nat :=
  match i with
  | .mov _ _ => (s.pc.toNat + 1) % 256
  | .add _ _ => (s.pc.toNat + 1) % 256
  | .sub _ _ => (s.pc.toNat + 1) % 256
  | .and _ _ => (s.pc.toNat + 1) % 256
  | .or _ _ => (s.pc.toNat + 1) % 256
  | .sl _ => (s.pc.toNat + 1) % 256
  | .sr _ => (s.pc.toNat + 1) % 256
  | .sra _ => (s.pc.toNat + 1) % 256
  | .ldl _ _ => (s.pc.toNat + 1) % 256
  | .ldh _ _ => (s.pc.toNat + 1) % 256
  | .cmp _ _ => (s.pc.toNat + 1) % 256
  | .je addr8 => if s.flag then addr8.toNat else (s.pc.toNat + 1) % 256
  | .jmp addr8 => addr8.toNat
  | .ld _ _ => (s.pc.toNat + 1) % 256
  | .st _ _ => (s.pc.toNat + 1) % 256
  | .hlt => s.pc.toNat
  | .reserved => s.pc.toNat

/-- The machine has a step to take or has ended as the spec says, and its memories are in their canonical form. -/
structure Inv (s : State) : Prop where
  imem_wf : s.imem.wf Config.imemSize = true
  dmem_wf : s.dmem.wf Config.dmemSize = true
  /-- Halted only at a Hlt word, with the word in `ir` and its address in `pc` (R28, R86). -/
  halted : s.run = .halted → s.ir = s.ifetch s.pc ∧ decode s.ir = .hlt
  /-- Faulted only at a reserved word, with the record of R161. -/
  faulted : ∀ r, s.run = .faulted r → r = s.illegalOpcodeRecord ∧ s.ir = s.ifetch s.pc ∧ decode s.ir = .reserved
  /-- Every traced word is the word instruction memory holds at its address, and is an executed one (R50, R91). -/
  traced : ∀ e ∈ s.trace, e.ir = s.ifetch e.pc ∧ (decode e.ir).executes = true
  /-- Before the first step everything but instruction memory has its reset value (R88, R90). -/
  fresh : s.beforeFirstStep = true → s = { State.reset with imem := s.imem }

/-- No run from `s` ends Faulted: "never a successful end of a run" (R152). -/
def NeverFaults (s : State) : Prop :=
  ∀ is t, Run s is t → ∀ r, t.run ≠ .faulted r

/-- No cell of instruction memory holds a reserved word (R75). -/
def NoReservedWord (s : State) : Prop :=
  ∀ a, decode (s.ifetch a) ≠ .reserved

/-- No cell of instruction memory holds a Hlt word (R151). -/
def NoHltWord (s : State) : Prop :=
  ∀ a, decode (s.ifetch a) ≠ .hlt

end Sys2Proof.Machine
end

