-- ==== Sys2Proof/Certificates/Slice0/Obligations.lean ====
section
/-!
DEFINITION. The statements for the provers, each from the spec's numbered rules. A docstring names the rules, and says where a clause rests on a
decision of the spec (D<n>) or of the model (log entry <n>).
-/

open Sys2Proof Sys2Proof.Machine

/-! ## The instructions: encoding, result, frame and completion -/

/-- R101. Every word of opcode 0 is Mov of its two fields, the canonical word is as given, and Mov completes on every state: `x[ra]` becomes `x[rb]`,
nothing else changes but `pc` and the trace.
The trace clause rests on log entry 5 (DESIGN CHOICE: the trace is kept in the state; R91, D15), and decoding whatever the ignored bits on R68's own
derivation (D18; log entry 13, DEDUCED). -/
def Obligations.MovCopiesRegister : Prop :=
  (∀ w : Word, w &&& 0xF800 = 0x0000 → decode w = .mov (w.extractLsb' 8 3) (w.extractLsb' 5 3)) ∧
  (∀ ra rb : RegIdx, encode (.mov ra rb) = some (0x0000 ||| ra.setWidth 16 <<< 8 ||| rb.setWidth 16 <<< 5)) ∧
  ∀ (ra rb : RegIdx) (s : State), ∃ t, exec (.mov ra rb) s = .next t ∧
    t.readReg ra = s.readReg rb ∧ Unchanged (some ra) none s t ∧ Sequential s t

/-- R102. Addition modulo 65536 on the mathematical integers; no flag, no trap.
The trace clause rests on log entry 5 (DESIGN CHOICE: the trace is kept in the state; R91, D15), and decoding whatever the ignored bits on R68's own
derivation (D18; log entry 13, DEDUCED). -/
def Obligations.AddWrapsModulo65536 : Prop :=
  (∀ w : Word, w &&& 0xF800 = 0x0800 → decode w = .add (w.extractLsb' 8 3) (w.extractLsb' 5 3)) ∧
  (∀ ra rb : RegIdx, encode (.add ra rb) = some (0x0800 ||| ra.setWidth 16 <<< 8 ||| rb.setWidth 16 <<< 5)) ∧
  ∀ (ra rb : RegIdx) (s : State), ∃ t, exec (.add ra rb) s = .next t ∧
    (t.readReg ra).toNat = ((s.readReg ra).toNat + (s.readReg rb).toNat) % 65536 ∧
    Unchanged (some ra) none s t ∧ Sequential s t

/-- R103. Subtraction modulo 65536 on the mathematical integers, the remainder non-negative; no flag, no trap.
The trace clause rests on log entry 5 (DESIGN CHOICE: the trace is kept in the state; R91, D15), and decoding whatever the ignored bits on R68's own
derivation (D18; log entry 13, DEDUCED). -/
def Obligations.SubWrapsModulo65536 : Prop :=
  (∀ w : Word, w &&& 0xF800 = 0x1000 → decode w = .sub (w.extractLsb' 8 3) (w.extractLsb' 5 3)) ∧
  (∀ ra rb : RegIdx, encode (.sub ra rb) = some (0x1000 ||| ra.setWidth 16 <<< 8 ||| rb.setWidth 16 <<< 5)) ∧
  ∀ (ra rb : RegIdx) (s : State), ∃ t, exec (.sub ra rb) s = .next t ∧
    ((t.readReg ra).toNat : Int) = (((s.readReg ra).toNat : Int) - ((s.readReg rb).toNat : Int)) % 65536 ∧
    Unchanged (some ra) none s t ∧ Sequential s t

/-- R104. Bit i of the result is 1 exactly when bit i of both operands is 1.
The trace clause rests on log entry 5 (DESIGN CHOICE: the trace is kept in the state; R91, D15), and decoding whatever the ignored bits on R68's own
derivation (D18; log entry 13, DEDUCED). -/
def Obligations.AndIsBitwise : Prop :=
  (∀ w : Word, w &&& 0xF800 = 0x1800 → decode w = .and (w.extractLsb' 8 3) (w.extractLsb' 5 3)) ∧
  (∀ ra rb : RegIdx, encode (.and ra rb) = some (0x1800 ||| ra.setWidth 16 <<< 8 ||| rb.setWidth 16 <<< 5)) ∧
  ∀ (ra rb : RegIdx) (s : State), ∃ t, exec (.and ra rb) s = .next t ∧
    (∀ i < 16, (t.readReg ra).getLsbD i = ((s.readReg ra).getLsbD i && (s.readReg rb).getLsbD i)) ∧
    Unchanged (some ra) none s t ∧ Sequential s t

/-- R105. Bit i of the result is 1 exactly when bit i of at least one operand is 1.
The trace clause rests on log entry 5 (DESIGN CHOICE: the trace is kept in the state; R91, D15), and decoding whatever the ignored bits on R68's own
derivation (D18; log entry 13, DEDUCED). -/
def Obligations.OrIsBitwise : Prop :=
  (∀ w : Word, w &&& 0xF800 = 0x2000 → decode w = .or (w.extractLsb' 8 3) (w.extractLsb' 5 3)) ∧
  (∀ ra rb : RegIdx, encode (.or ra rb) = some (0x2000 ||| ra.setWidth 16 <<< 8 ||| rb.setWidth 16 <<< 5)) ∧
  ∀ (ra rb : RegIdx) (s : State), ∃ t, exec (.or ra rb) s = .next t ∧
    (∀ i < 16, (t.readReg ra).getLsbD i = ((s.readReg ra).getLsbD i || (s.readReg rb).getLsbD i)) ∧
    Unchanged (some ra) none s t ∧ Sequential s t

/-- R111. Result bits [15:1] are the old bits [14:0] and bit 0 is 0: twice the value modulo 65536.
The trace clause rests on log entry 5 (DESIGN CHOICE: the trace is kept in the state; R91, D15), and decoding whatever the ignored bits on R68's own
derivation (D18; log entry 13, DEDUCED). -/
def Obligations.SlShiftsLeftByOne : Prop :=
  (∀ w : Word, w &&& 0xF800 = 0x2800 → decode w = .sl (w.extractLsb' 8 3)) ∧
  (∀ ra : RegIdx, encode (.sl ra) = some (0x2800 ||| ra.setWidth 16 <<< 8)) ∧
  ∀ (ra : RegIdx) (s : State), ∃ t, exec (.sl ra) s = .next t ∧
    (t.readReg ra).toNat = (s.readReg ra).toNat * 2 % 65536 ∧
    (t.readReg ra).getLsbD 0 = false ∧ (∀ i < 15, (t.readReg ra).getLsbD (i + 1) = (s.readReg ra).getLsbD i) ∧
    Unchanged (some ra) none s t ∧ Sequential s t

/-- R112. Result bits [14:0] are the old bits [15:1] and bit 15 is 0: half the value, rounded down.
The trace clause rests on log entry 5 (DESIGN CHOICE: the trace is kept in the state; R91, D15), and decoding whatever the ignored bits on R68's own
derivation (D18; log entry 13, DEDUCED). -/
def Obligations.SrShiftsRightLogicalByOne : Prop :=
  (∀ w : Word, w &&& 0xF800 = 0x3000 → decode w = .sr (w.extractLsb' 8 3)) ∧
  (∀ ra : RegIdx, encode (.sr ra) = some (0x3000 ||| ra.setWidth 16 <<< 8)) ∧
  ∀ (ra : RegIdx) (s : State), ∃ t, exec (.sr ra) s = .next t ∧
    (t.readReg ra).toNat = (s.readReg ra).toNat / 2 ∧
    (t.readReg ra).getLsbD 15 = false ∧ (∀ i < 15, (t.readReg ra).getLsbD i = (s.readReg ra).getLsbD (i + 1)) ∧
    Unchanged (some ra) none s t ∧ Sequential s t

/-- R113. Result bits [14:0] are the old bits [15:1] and bit 15 is the old bit 15.
The trace clause rests on log entry 5 (DESIGN CHOICE: the trace is kept in the state; R91, D15), and decoding whatever the ignored bits on R68's own
derivation (D18; log entry 13, DEDUCED). -/
def Obligations.SraShiftsRightArithmeticByOne : Prop :=
  (∀ w : Word, w &&& 0xF800 = 0x3800 → decode w = .sra (w.extractLsb' 8 3)) ∧
  (∀ ra : RegIdx, encode (.sra ra) = some (0x3800 ||| ra.setWidth 16 <<< 8)) ∧
  ∀ (ra : RegIdx) (s : State), ∃ t, exec (.sra ra) s = .next t ∧
    (t.readReg ra).getLsbD 15 = (s.readReg ra).getLsbD 15 ∧
    (∀ i < 15, (t.readReg ra).getLsbD i = (s.readReg ra).getLsbD (i + 1)) ∧
    Unchanged (some ra) none s t ∧ Sequential s t

/-- The inference R113 marks as its own (`[derived: from the pseudocode and 00_scope.md rule R7]`): read as a two's-complement number the result of
Sra is the value divided by 2, rounded toward minus infinity. -/
def Obligations.SraHalvesSignedValue : Prop :=
  ∀ (ra : RegIdx) (s : State), ∃ t, exec (.sra ra) s = .next t ∧
    2 * (t.readReg ra).toInt ≤ (s.readReg ra).toInt ∧ (s.readReg ra).toInt < 2 * (t.readReg ra).toInt + 2

/-- R121. Result bits [15:8] are kept, result bits [7:0] are `imm8`.
The trace clause rests on log entry 5 (DESIGN CHOICE: the trace is kept in the state; R91, D15). -/
def Obligations.LdlReplacesLowByte : Prop :=
  (∀ w : Word, w &&& 0xF800 = 0x4000 → decode w = .ldl (w.extractLsb' 8 3) (w.extractLsb' 0 8)) ∧
  (∀ (ra : RegIdx) (imm8 : Imm), encode (.ldl ra imm8) = some (0x4000 ||| ra.setWidth 16 <<< 8 ||| imm8.setWidth 16)) ∧
  ∀ (ra : RegIdx) (imm8 : Imm) (s : State), ∃ t, exec (.ldl ra imm8) s = .next t ∧
    (t.readReg ra).extractLsb' 0 8 = imm8 ∧ (t.readReg ra).extractLsb' 8 8 = (s.readReg ra).extractLsb' 8 8 ∧
    Unchanged (some ra) none s t ∧ Sequential s t

/-- R122. Result bits [15:8] are `imm8`, result bits [7:0] are kept.
The trace clause rests on log entry 5 (DESIGN CHOICE: the trace is kept in the state; R91, D15). -/
def Obligations.LdhReplacesHighByte : Prop :=
  (∀ w : Word, w &&& 0xF800 = 0x4800 → decode w = .ldh (w.extractLsb' 8 3) (w.extractLsb' 0 8)) ∧
  (∀ (ra : RegIdx) (imm8 : Imm), encode (.ldh ra imm8) = some (0x4800 ||| ra.setWidth 16 <<< 8 ||| imm8.setWidth 16)) ∧
  ∀ (ra : RegIdx) (imm8 : Imm) (s : State), ∃ t, exec (.ldh ra imm8) s = .next t ∧
    (t.readReg ra).extractLsb' 8 8 = imm8 ∧ (t.readReg ra).extractLsb' 0 8 = (s.readReg ra).extractLsb' 0 8 ∧
    Unchanged (some ra) none s t ∧ Sequential s t

/-- R131. The flag becomes 1 exactly when the two registers hold the same 16 bits, whatever it was; no register changes and `pc` is only
incremented.
The trace clause rests on log entry 5 (DESIGN CHOICE: the trace is kept in the state; R91, D15), and decoding whatever the ignored bits on R68's own
derivation (D18; log entry 13, DEDUCED). -/
def Obligations.CmpSetsFlagOnEquality : Prop :=
  (∀ w : Word, w &&& 0xF800 = 0x5000 → decode w = .cmp (w.extractLsb' 8 3) (w.extractLsb' 5 3)) ∧
  (∀ ra rb : RegIdx, encode (.cmp ra rb) = some (0x5000 ||| ra.setWidth 16 <<< 8 ||| rb.setWidth 16 <<< 5)) ∧
  ∀ (ra rb : RegIdx) (s : State), ∃ t, exec (.cmp ra rb) s = .next t ∧
    (t.flag = true ↔ (s.readReg ra).toNat = (s.readReg rb).toNat) ∧
    t.pc.toNat = (s.pc.toNat + 1) % 256 ∧ t.run = s.run ∧ t.trace = s.traceEvent :: s.trace ∧ Unchanged none none s t

/-- R132. The next address is `addr8` when the flag is 1 and the incremented address when it is 0; the flag is kept either way.
The trace clause rests on log entry 5 (DESIGN CHOICE: the trace is kept in the state; R91, D15), and decoding whatever the ignored bits on R68's own
derivation (D18; log entry 13, DEDUCED). -/
def Obligations.JeJumpsWhenFlagIsOne : Prop :=
  (∀ w : Word, w &&& 0xF800 = 0x5800 → decode w = .je (w.extractLsb' 0 8)) ∧
  (∀ addr8 : Addr, encode (.je addr8) = some (0x5800 ||| addr8.setWidth 16)) ∧
  ∀ (addr8 : Addr) (s : State), ∃ t, exec (.je addr8) s = .next t ∧
    (s.flag = true → t.pc = addr8) ∧ (s.flag = false → t.pc.toNat = (s.pc.toNat + 1) % 256) ∧
    t.flag = s.flag ∧ t.run = s.run ∧ t.trace = s.traceEvent :: s.trace ∧ Unchanged none none s t

/-- R133. The next address is `addr8`, whatever the flag.
The trace clause rests on log entry 5 (DESIGN CHOICE: the trace is kept in the state; R91, D15), and decoding whatever the ignored bits on R68's own
derivation (D18; log entry 13, DEDUCED). -/
def Obligations.JmpAlwaysJumps : Prop :=
  (∀ w : Word, w &&& 0xF800 = 0x6000 → decode w = .jmp (w.extractLsb' 0 8)) ∧
  (∀ addr8 : Addr, encode (.jmp addr8) = some (0x6000 ||| addr8.setWidth 16)) ∧
  ∀ (addr8 : Addr) (s : State), ∃ t, exec (.jmp addr8) s = .next t ∧
    t.pc = addr8 ∧ t.flag = s.flag ∧ t.run = s.run ∧ t.trace = s.traceEvent :: s.trace ∧ Unchanged none none s t

/-- R141. `x[ra]` becomes the whole cell of data memory at `addr8`; data memory is unchanged.
The trace clause rests on log entry 5 (DESIGN CHOICE: the trace is kept in the state; R91, D15). -/
def Obligations.LdReadsDataMemory : Prop :=
  (∀ w : Word, w &&& 0xF800 = 0x6800 → decode w = .ld (w.extractLsb' 8 3) (w.extractLsb' 0 8)) ∧
  (∀ (ra : RegIdx) (addr8 : Addr), encode (.ld ra addr8) = some (0x6800 ||| ra.setWidth 16 <<< 8 ||| addr8.setWidth 16)) ∧
  ∀ (ra : RegIdx) (addr8 : Addr) (s : State), ∃ t, exec (.ld ra addr8) s = .next t ∧
    t.readReg ra = s.memRead addr8 ∧ t.dmem = s.dmem ∧ Unchanged (some ra) none s t ∧ Sequential s t

/-- R142. The data cell at `addr8` becomes `x[ra]`; every other data cell, every register and all of instruction memory are unchanged.
The trace clause rests on log entry 5 (DESIGN CHOICE: the trace is kept in the state; R91, D15). -/
def Obligations.StWritesOneDataCell : Prop :=
  (∀ w : Word, w &&& 0xF800 = 0x7000 → decode w = .st (w.extractLsb' 8 3) (w.extractLsb' 0 8)) ∧
  (∀ (ra : RegIdx) (addr8 : Addr), encode (.st ra addr8) = some (0x7000 ||| ra.setWidth 16 <<< 8 ||| addr8.setWidth 16)) ∧
  ∀ (ra : RegIdx) (addr8 : Addr) (s : State), ∃ t, exec (.st ra addr8) s = .next t ∧
    t.memRead addr8 = s.readReg ra ∧ Unchanged none (some addr8) s t ∧ Sequential s t

/-- R151 and R86. Every word 0x7800 to 0x7FFF is Hlt; Hlt makes the machine Halted and changes nothing else. A step that fetches it leaves `pc` at the
Hlt word and the word in `ir` (`ir` after the halt: the spec's decision D2). -/
def Obligations.HltEndsTheRun : Prop :=
  (∀ w : Word, 0x7800 ≤ w.toNat → w.toNat ≤ 0x7FFF → decode w = .hlt) ∧
  encode .hlt = some 0x7800 ∧
  (∀ s : State, exec .hlt s = .next { s with run := .halted }) ∧
  ∀ s : State, s.run = .running → decode (s.ifetch s.pc) = .hlt →
    step s = .next { s with ir := s.ifetch s.pc, run := .halted }

/-- R152, R161, R162 (the spec's decisions D3 and D4). Every word with bit 15 set is reserved; it makes the machine Faulted with the record (code 1,
the address in `pc`, the word in `ir`) and changes nothing else. A step that fetches it leaves `pc` at the word and the word in `ir`. -/
def Obligations.ReservedRaisesIllegalOpcode : Prop :=
  (∀ w : Word, 0x8000 ≤ w.toNat → decode w = .reserved) ∧
  (∀ s : State, exec .reserved s =
    .next { s with run := .faulted { cause := .illegalOpcode, address := s.pc, word := s.ir } }) ∧
  ∀ s : State, s.run = .running → decode (s.ifetch s.pc) = .reserved → ∃ t, step s = .next t ∧
    t = { s with
      ir := s.ifetch s.pc, run := .faulted { cause := .illegalOpcode, address := s.pc, word := s.ifetch s.pc } } ∧
    t.statusCode = 1

/-! ## All instructions at once -/

/-- R84. The handler is selected by the opcode field alone, and a handler writes exactly the one piece of state its row names. -/
def Obligations.HandlerWritesOnlyItsOwnState : Prop :=
  (∀ v w : Word, (decodeFields v).op = (decodeFields w).op → (decode v).mnemonic = (decode w).mnemonic) ∧
  ∀ (i : Instr) (s t : State), i.executes = true → exec i s = .next t →
    Unchanged i.destReg i.storeAddr s t ∧ (i.isCmp = false → t.flag = s.flag) ∧ t.run = s.run ∧
    ((∀ a, i ≠ .je a) → (∀ a, i ≠ .jmp a) → t.pc.toNat = (s.pc.toNat + 1) % 256)

/-- R83, with R26's wrap. After an executed instruction the next address is the incremented one, unless a jump replaced it: the increment and the jump's
write do not add. -/
def Obligations.IncrementThenJumpReplaces : Prop :=
  ∀ s t : State, step s = .next t → (decode (s.ifetch s.pc)).executes = true →
    t.pc.toNat = nextAddress (decode (s.ifetch s.pc)) s

/-- R23. An instruction writes at most the register named by its `ra`, and its effect depends on no register but the ones it reads: two states that differ
only in a register it does not read give results that differ at most in that register (and in the trace, an output). -/
def Obligations.RegisterReadsAndWrites : Prop :=
  (∀ (i : Instr) (s t : State), exec i s = .next t → ∀ r, i.destReg ≠ some r → t.readReg r = s.readReg r) ∧
  ∀ (i : Instr) (s t : State) (r : RegIdx) (v : Word), r ∉ i.srcRegs → exec i s = .next t →
    ∃ u, exec i (s.writeReg r v) = .next u ∧
      (∀ q, q ≠ r ∨ i.destReg = some q → u.readReg q = t.readReg q) ∧
      u.pc = t.pc ∧ u.flag = t.flag ∧ u.dmem = t.dmem ∧ u.run = t.run

/-- R44. A store writes one cell of data memory and every other instruction none; a load reads one cell and no other instruction reads any; the fetch reads
one cell of instruction memory: a memory that agrees on the cell read gives the same result. -/
def Obligations.AccessesTouchOneCell : Prop :=
  (∀ (i : Instr) (s t : State), exec i s = .next t →
    (i.storeAddr = none → t.dmem = s.dmem) ∧ ∀ a, i.storeAddr ≠ some a → t.memRead a = s.memRead a) ∧
  (∀ (i : Instr) (s t : State) (m : Memory), (∀ ra a, i = .ld ra a → m.read a = s.dmem.read a) →
    exec i s = .next t →
    ∃ u, exec i { s with dmem := m } = .next u ∧ u.x = t.x ∧ u.pc = t.pc ∧ u.flag = t.flag ∧ u.run = t.run) ∧
  ∀ (s t : State) (m : Memory), m.read s.pc = s.imem.read s.pc → step s = .next t →
    step { s with imem := m } = .next { t with imem := m }

/-- R9, R160. Every instruction completes on every state, and no defined instruction makes a machine Faulted (that the reserved row does: D3). -/
def Obligations.DefinedInstructionsNeverFault : Prop :=
  ∀ (i : Instr) (s : State), ∃ t, exec i s = .next t ∧
    (i.wellFormed = true → ∀ r, t.run = .faulted r → s.run = .faulted r) ∧
    (i.wellFormed = false → t.run = .faulted s.illegalOpcodeRecord)

/-- R25, R31, R33: no instruction reads `pc`, `ir` or the trace as data, and none reaches instruction memory. Two states that agree on registers, flag and
data memory agree on them after any instruction. -/
def Obligations.ProgramStateIsNotData : Prop :=
  ∀ (i : Instr) (s s' t t' : State), s.x = s'.x → s.flag = s'.flag → s.dmem = s'.dmem →
    exec i s = .next t → exec i s' = .next t' → t.x = t'.x ∧ t.flag = t'.flag ∧ t.dmem = t'.dmem

/-- S1 of 95_test_vectors.md, quoted by R120: an Ldh and an Ldl of the two bytes of `v`, in either order, leave `v` in the register whatever it held. -/
def Obligations.LdhLdlPairLoadsConstant : Prop :=
  ∀ (r : RegIdx) (v : Word) (s : State),
    (∃ t u, exec (.ldh r (v.extractLsb' 8 8)) s = .next t ∧ exec (.ldl r (v.extractLsb' 0 8)) t = .next u ∧
      u.readReg r = v) ∧
    ∃ t u, exec (.ldl r (v.extractLsb' 0 8)) s = .next t ∧ exec (.ldh r (v.extractLsb' 8 8)) t = .next u ∧
      u.readReg r = v

/-- R102, R111: "the result equals `Add ra, ra`": the two instructions do the same to every state. -/
def Obligations.SlEqualsAddToItself : Prop :=
  ∀ (ra : RegIdx) (s : State), exec (.sl ra) s = exec (.add ra ra) s

/-! ## The step and the run -/

/-- R80, R81 (that `ir` is loaded on every step: D2). On a Running machine whose word at `pc` decodes to `i`, the step is `i` done on the state with that
word in `ir`; nothing is added around it (the increment and the trace event are part of the instruction's meaning). -/
def Obligations.StepRunsDecodedInstruction : Prop :=
  ∀ (s : State) (i : Instr), s.run = .running → decode (s.ifetch s.pc) = i →
    step s = exec i { s with ir := s.ifetch s.pc }

/-- R32, R80, U10 (Faulted: D3, D4). A Running machine always has a step; a Halted or Faulted one has none, and no execution leaves it.
That 'no step' is answered by the named stops rests on log entry 6 (DESIGN CHOICE). -/
def Obligations.StepExactlyWhileRunning : Prop :=
  (∀ s : State, s.run = .running → ∃ t, step s = .next t) ∧
  (∀ s : State, s.run = .halted → step s = .fault .runHalted) ∧
  (∀ (s : State) (r : FaultRecord), s.run = .faulted r → step s = .fault (.runFaulted r)) ∧
  ∀ (s t : State) (is : List Instr), s.run ≠ .running → Run s is t → is = [] ∧ t = s

/-- R32 (Faulted: D3, D4). A step leads to Running exactly on a defined word other than Hlt, to Halted exactly on a Hlt word, to Faulted exactly on a
reserved word. -/
def Obligations.RunStateTransitions : Prop :=
  ∀ s t : State, step s = .next t →
    s.run = .running ∧
    (t.run = .running ↔ (decodeFields (s.ifetch s.pc)).op.toNat < 15) ∧
    (t.run = .halted ↔ (decodeFields (s.ifetch s.pc)).op.toNat = 15) ∧
    ((∃ r, t.run = .faulted r) ↔ 16 ≤ (decodeFields (s.ifetch s.pc)).op.toNat)

/-- R50. Instruction memory is constant during a run, and once a step has been taken every load is refused.
The refusal rests on R88 with D7, and on log entry 8 (DESIGN CHOICE: 'no step taken' is read off the state as Running with an empty trace). -/
def Obligations.InstructionMemoryIsConstant : Prop :=
  (∀ (s t : State) (is : List Instr), Run s is t → t.imem = s.imem) ∧
  ∀ (s t u : State) (is : List Instr), step s = .next t → Run t is u →
    ∀ words base, load words base u = .refused .runStarted

/-- R29. The flag is 0 at reset, is set by a Cmp to the comparison's outcome, and keeps its value through every other instruction, however many. -/
def Obligations.FlagPersistsUntilNextCmp : Prop :=
  State.reset.flag = false ∧
  (∀ (s t : State) (is : List Instr), Run s is t → (∀ i ∈ is, i.isCmp = false) → t.flag = s.flag) ∧
  ∀ (s t : State) (ra rb : RegIdx) (is : List Instr), Run s (.cmp ra rb :: is) t → (∀ i ∈ is, i.isCmp = false) →
    (t.flag = true ↔ s.readReg ra = s.readReg rb)

/-- R49 (c). A load returns the value of the most recent earlier store to its address, however many other instructions lie between, or 0 if there was none
since reset. -/
def Obligations.LoadReturnsLatestStore : Prop :=
  (∀ (s t : State) (ra rb : RegIdx) (a : Addr) (is : List Instr),
    Run s (.st ra a :: is) t → (∀ i ∈ is, i.storeAddr ≠ some a) → t.run = .running →
    decode (t.ifetch t.pc) = .ld rb a → ∃ u, step t = .next u ∧ u.readReg rb = s.readReg ra) ∧
  ∀ (words : List Word) (base : Nat) (s t : State) (rb : RegIdx) (a : Addr) (is : List Instr),
    load words base State.reset = .loaded s → Run s is t → (∀ i ∈ is, i.storeAddr ≠ some a) → t.run = .running →
    decode (t.ifetch t.pc) = .ld rb a → ∃ u, step t = .next u ∧ u.readReg rb = 0

/-- R91 (that the trace is recorded in the state: log entry 5; none for a reserved word: D15). One event per executed instruction, with the address and word
fetched and registers 0 to 3 from before the effect; none for Hlt and reserved words. -/
def Obligations.TraceRecordsExecutedInstructions : Prop :=
  ∀ s t : State, step s = .next t →
    t.traceOutput = s.traceOutput ++
      (if (decode (s.ifetch s.pc)).executes then
        [{ pc := s.pc, ir := s.ifetch s.pc, x0 := s.readReg 0, x1 := s.readReg 1, x2 := s.readReg 2, x3 := s.readReg 3 }]
      else [])

/-- R87 (b). With no Hlt word and no reserved word in instruction memory the run never ends: it has an execution of every length, and stays Running. -/
def Obligations.NoHltWordNoEnd : Prop :=
  ∀ s : State, s.run = .running → NoHltWord s → NoReservedWord s →
    ∀ n, ∃ is t, is.length = n ∧ Run s is t ∧ t.run = .running

/-- R152, R160 (the fault: D3). With no reserved word in instruction memory no run from a machine that is not Faulted ever faults. -/
def Obligations.NoReservedWordNoFault : Prop :=
  ∀ s : State, (∀ r, s.run ≠ .faulted r) → NoReservedWord s → NeverFaults s

/-! ## The invariant -/

/-- The reset state meets every clause of the invariant.
The canonical form of the memories rests on log entries 2 and 3 (DESIGN CHOICE). The clauses on the trace (log entry 5) and on the time before the first
step (log entry 8) say nothing new of this state. The values of the reset state are ResetValuesAreZero. -/
def Obligations.ResetMeetsInvariant : Prop :=
  Inv State.reset

/-- Every step keeps the invariant: canonical memories, Halted only at a Hlt word and Faulted only at a reserved word with its record, every traced word
the one instruction memory holds, and everything but instruction memory at reset values before the first step.
What the clauses rest on beyond the source: the canonical form, on log entries 2 and 3 (DESIGN CHOICE); `ir` at the end of a run, on D2 (log entry 9);
Faulted and its record, on D3 and D4 (log entry 10); the traced words, on log entry 5 (DESIGN CHOICE: the trace is kept in the state; R91, D15); "before
the first step", on log entry 8 (DESIGN CHOICE: Running with an empty trace), with what the host may have done by then (R88, R90, D21). -/
def Obligations.StepKeepsInvariant : Prop :=
  ∀ s t : State, Inv s → step s = .next t → Inv t

/-- R88, R90. A load that is not refused keeps the invariant.
Which loads are refused is the spec's decision D7 (bounds, and none after the first step). "No step taken", in the load's test and in the invariant's clause on
the time before the first step, rests on log entry 8 (DESIGN CHOICE: Running with an empty trace), and so on log entry 5 (the trace is kept in the state).
The canonical form of the memories rests on log entries 2 and 3 (DESIGN CHOICE). -/
def Obligations.LoadKeepsInvariant : Prop :=
  ∀ (words : List Word) (base : Nat) (s t : State), Inv s → load words base s = .loaded t → Inv t

/-! ## Encoding -/

/-- Decode of encode, for every defined instruction with every operand: the encoder gives a word, and the word decodes to the instruction. -/
def Obligations.DecodeOfEncode : Prop :=
  ∀ i : Instr, i.wellFormed = true → ∃ w, encode i = some w ∧ decode w = i

/-- R74. Encoding then decoding a too-large operand returns only its low bits: the fields of the encoded word are the opcode and the operands reduced to
3 and 8 bits (the RI and A parts: the rule's own derivation). That the arguments are natural numbers is log entry 11 (DESIGN CHOICE). -/
def Obligations.EncoderTruncatesOperands : Prop :=
  (∀ op a b : Nat, formatOf op = some .rr → ∃ w, encodeRR op a b = some w ∧
    (decodeFields w).op.toNat = op ∧ (decodeFields w).ra.toNat = a % 8 ∧ (decodeFields w).rb.toNat = b % 8) ∧
  (∀ op a : Nat, formatOf op = some .r → ∃ w, encodeR op a = some w ∧
    (decodeFields w).op.toNat = op ∧ (decodeFields w).ra.toNat = a % 8) ∧
  (∀ op a v : Nat, formatOf op = some .ri → ∃ w, encodeRI op a v = some w ∧
    (decodeFields w).op.toNat = op ∧ (decodeFields w).ra.toNat = a % 8 ∧ (decodeFields w).imm8.toNat = v % 256) ∧
  ∀ op v : Nat, formatOf op = some .a → ∃ w, encodeA op v = some w ∧
    (decodeFields w).op.toNat = op ∧ (decodeFields w).imm8.toNat = v % 256

/-- R79 (the spec's decision D13). Each encoder function gives a word exactly for the opcodes of its format, whatever the operands; the word has bit 15 and
every don't-care bit clear. -/
def Obligations.EncoderDomain : Prop :=
  (∀ op a b : Nat, (encodeRR op a b).isSome = true ↔ op < 16 ∧ formatOf op = some .rr) ∧
  (∀ op a : Nat, (encodeR op a).isSome = true ↔ op < 16 ∧ formatOf op = some .r) ∧
  (∀ op a v : Nat, (encodeRI op a v).isSome = true ↔ op < 16 ∧ formatOf op = some .ri) ∧
  (∀ op v : Nat, (encodeA op v).isSome = true ↔ op < 16 ∧ formatOf op = some .a) ∧
  (∀ op : Nat, (encodeZ op).isSome = true ↔ op < 16 ∧ formatOf op = some .z) ∧
  ∀ (op a b : Nat) (w : Word) (f : Format), formatOf op = some f →
    encodeRR op a b = some w ∨ encodeR op a = some w ∨ encodeRI op a b = some w ∨ encodeA op a = some w ∨
      encodeZ op = some w →
    w.getLsbD 15 = false ∧ w &&& usedMask f = w

/-- R68 (derived there; D18). Don't-care bits are ignored: every word that is not reserved decodes as its canonical word, which is the word with the
don't-care bits of its format cleared. -/
def Obligations.DontCareBitsIgnored : Prop :=
  ∀ w : Word, (decode w).wellFormed = true → ∃ op f, (decode w).opcode = some op ∧ formatOf op = some f ∧
    encode (decode w) = some (w &&& usedMask f) ∧ decode (w &&& usedMask f) = decode w

/-- R67, R75, R76 (the treatment of reserved words: D3). The rows of the opcode map cover every word, no two rows cover one word, the row that covers a word
is the row of its decoded instruction, and the reserved words are those with bit 15 set. -/
def Obligations.OpcodeMapPartitionsWords : Prop :=
  ∀ w : Word, (∃ row ∈ opcodeTable, row.covers w = true) ∧
    (∀ row ∈ opcodeTable, row.covers w = true ↔ (decode w).mnemonic = row.mnemonic) ∧
    (∀ row ∈ opcodeTable, ∀ row' ∈ opcodeTable, row.covers w = true → row'.covers w = true → row = row') ∧
    (decode w = .reserved ↔ w.getLsbD 15 = true)

/-- Words written out from table E of 95_test_vectors.md and its non-canonical and reserved words, one for each format and family. -/
def Obligations.DecodesWordsOfTheSpec : Prop :=
  decode 0b0000000101000000 = .mov 1 2 ∧ decode 0b0001110111000000 = .and 5 6 ∧
  decode 0b0011101000000000 = .sra 2 ∧ decode 0b0100001110101011 = .ldl 3 0xAB ∧
  decode 0b0101001001100000 = .cmp 2 3 ∧ decode 0b0101100000001110 = .je 14 ∧
  decode 0b0111011111111111 = .st 7 255 ∧ decode 0b0111101010111100 = .hlt ∧
  decode 0b0000101000111111 = .add 2 1 ∧ decode 0b1111100000000000 = .reserved

/-! ## Reset and the host -/

/-- R181, with R34's values. Every register, the flag, the program counter, the instruction register and every cell of both memories is 0 at reset, and the
machine is Running with no fault recorded.
The clause on instruction memory rests on D8 and log entry 3 (DESIGN CHOICE, unsafe for instruction memory), the flag's value on D19, and the status
code on D4 and log entry 4 (DESIGN CHOICE). -/
def Obligations.ResetValuesAreZero : Prop :=
  (∀ r, State.reset.readReg r = 0) ∧ State.reset.pc = 0 ∧ State.reset.ir = 0 ∧ State.reset.flag = false ∧
  (∀ a, State.reset.ifetch a = 0) ∧ (∀ a, State.reset.memRead a = 0) ∧
  State.reset.run = .running ∧ State.reset.statusCode = 0

/-- R88 (bounds, repetition and refusal: D7). Before the first step a load within bounds puts word `i` at address `base + i` and changes nothing else; out of
bounds it is refused; a later load of the same cells wins.
"Before the first step" is read off the state as log entry 8 says (DESIGN CHOICE: Running with an empty trace). -/
def Obligations.LoadWritesConsecutiveWords : Prop :=
  (∀ (words : List Word) (base : Nat) (s : State), s.beforeFirstStep = true → 256 ≤ base ∨ 256 < base + words.length →
    load words base s = .refused .outOfBounds) ∧
  ∀ (words : List Word) (base : Nat) (s : State), s.beforeFirstStep = true → base < 256 → base + words.length ≤ 256 →
    ∃ t, load words base s = .loaded t ∧
      (∀ a : Addr, t.ifetch a =
        if base ≤ a.toNat then (words[a.toNat - base]?).getD (s.ifetch a) else s.ifetch a) ∧
      t.x = s.x ∧ t.pc = s.pc ∧ t.ir = s.ir ∧ t.flag = s.flag ∧ t.dmem = s.dmem ∧ t.run = s.run ∧ t.trace = s.trace

/-- R89 (failure with the record: D17; a second run: D10). `run()` answers success exactly at a Halted machine it reached by steps, failure with the record at
a Faulted one, and "out of fuel" only on a machine still Running after all its steps. The fuel is log entry 12 (DESIGN CHOICE). -/
def Obligations.RunResultMeansItsEnd : Prop :=
  (∀ (n : Nat) (s t : State), runEngine n s = .success t → t.run = .halted ∧ ∃ is, Run s is t) ∧
  (∀ (n : Nat) (s t : State) (r : FaultRecord), runEngine n s = .failure r t → t.run = .faulted r ∧ ∃ is, Run s is t) ∧
  (∀ (n : Nat) (s t : State), runEngine n s = .outOfFuel t → t.run = .running ∧ ∃ is, is.length = n ∧ Run s is t) ∧
  (∀ (n : Nat) (s : State), s.run = .halted → runEngine n s = .success s) ∧
  ∀ (n : Nat) (s : State) (r : FaultRecord), s.run = .faulted r → runEngine n s = .failure r s

/-- R90, R162 (D4, D16). The host reads nothing while the machine runs and the end state after it; the status code is 1 exactly on a Faulted machine whose
step recorded the illegal opcode, and 0 otherwise. -/
def Obligations.HostReadsAfterTheEnd : Prop :=
  (∀ s : State, s.readBack = none ↔ s.run = .running) ∧
  (∀ (s : State) (b : ReadBack), s.readBack = some b →
    b.x = s.x ∧ b.pc = s.pc ∧ b.ir = s.ir ∧ b.flag = s.flag ∧ b.dmem = s.dmem ∧ b.run = s.run) ∧
  ∀ s : State, (s.statusCode = 1 ↔ ∃ r, s.run = .faulted r) ∧ (s.statusCode = 0 ↔ ∀ r, s.run ≠ .faulted r)
end

