-- ==== Sys2Proof/Laws/Decode.lean ====
section
/-!
SUPPORT. The encoder's words as concatenations of their fields, and the fields read back (spec/30_encoding.md R62, R69 to R73).
-/

namespace Sys2Proof

theorem testBit_seven (j : Nat) : Nat.testBit 7 j = decide (j < 3) :=
  Nat.testBit_two_pow_sub_one 3 j

theorem testBit_byte (j : Nat) : Nat.testBit 255 j = decide (j < 8) :=
  Nat.testBit_two_pow_sub_one 8 j

/-- R69's word is `op`, `ra`, `rb` and five zeros. -/
theorem word_rr (op ra rb : Nat) :
    BitVec.ofNat 16 (op <<< 11 ||| (ra &&& 7) <<< 8 ||| (rb &&& 7) <<< 5) =
      BitVec.ofNat 5 op ++ BitVec.ofNat 3 ra ++ BitVec.ofNat 3 rb ++ 0#5 := by
  refine BitVec.eq_of_getLsbD_eq fun i hi => ?_
  simp only [BitVec.getLsbD_ofNat, BitVec.getLsbD_append, Nat.testBit_or, Nat.testBit_and, Nat.testBit_shiftLeft,
    testBit_seven]
  interval_cases i <;> simp

/-- R70's word is `op`, `ra` and eight zeros. -/
theorem word_r (op ra : Nat) :
    BitVec.ofNat 16 (op <<< 11 ||| (ra &&& 7) <<< 8) = BitVec.ofNat 5 op ++ BitVec.ofNat 3 ra ++ 0#8 := by
  refine BitVec.eq_of_getLsbD_eq fun i hi => ?_
  simp only [BitVec.getLsbD_ofNat, BitVec.getLsbD_append, Nat.testBit_or, Nat.testBit_and, Nat.testBit_shiftLeft,
    testBit_seven]
  interval_cases i <;> simp

/-- R71's word is `op`, `ra` and the low byte of the value. -/
theorem word_ri (op ra val : Nat) :
    BitVec.ofNat 16 (op <<< 11 ||| (ra &&& 7) <<< 8 ||| (val &&& 0xFF)) =
      BitVec.ofNat 5 op ++ BitVec.ofNat 3 ra ++ BitVec.ofNat 8 val := by
  refine BitVec.eq_of_getLsbD_eq fun i hi => ?_
  simp only [BitVec.getLsbD_ofNat, BitVec.getLsbD_append, Nat.testBit_or, Nat.testBit_and, Nat.testBit_shiftLeft,
    testBit_seven, testBit_byte]
  interval_cases i <;> simp

/-- R72's word is `op`, three zeros and the low byte of the address. -/
theorem word_a (op addr : Nat) :
    BitVec.ofNat 16 (op <<< 11 ||| (addr &&& 0xFF)) = BitVec.ofNat 5 op ++ 0#3 ++ BitVec.ofNat 8 addr := by
  refine BitVec.eq_of_getLsbD_eq fun i hi => ?_
  simp only [BitVec.getLsbD_ofNat, BitVec.getLsbD_append, Nat.testBit_or, Nat.testBit_and, Nat.testBit_shiftLeft,
    testBit_byte]
  interval_cases i <;> simp

/-- R73's word is `op` and eleven zeros. -/
theorem word_z (op : Nat) : BitVec.ofNat 16 (op <<< 11) = BitVec.ofNat 5 op ++ 0#11 := by
  refine BitVec.eq_of_getLsbD_eq fun i hi => ?_
  simp only [BitVec.getLsbD_ofNat, BitVec.getLsbD_append, Nat.testBit_shiftLeft]
  interval_cases i <;> simp

/-- The fields of a word given as `op`, `ra`, `rb` and five more bits (R62). -/
theorem decodeFields_append (op : BitVec 5) (ra rb : RegIdx) (rest : BitVec 5) :
    decodeFields (op ++ ra ++ rb ++ rest) = { op := op, ra := ra, rb := rb, imm8 := rb ++ rest } := by
  unfold decodeFields
  congr 1 <;>
    (refine BitVec.eq_of_getLsbD_eq fun i hi => ?_
     simp only [BitVec.getLsbD_extractLsb', BitVec.getLsbD_append]
     interval_cases i <;> simp)

/-- The fields other than `rb` of a word given as `op`, `ra` and a byte (R62). -/
theorem decodeFields_append_byte (op : BitVec 5) (ra : RegIdx) (imm8 : Imm) :
    decodeFields (op ++ ra ++ imm8) = { op := op, ra := ra, rb := imm8.extractLsb' 5 3, imm8 := imm8 } := by
  unfold decodeFields
  congr 1 <;>
    (refine BitVec.eq_of_getLsbD_eq fun i hi => ?_
     simp only [BitVec.getLsbD_extractLsb', BitVec.getLsbD_append]
     interval_cases i <;> simp)

/-- The opcode field of a word given as `op` and eleven more bits (R62). -/
theorem decodeFields_append_op (op : BitVec 5) (rest : BitVec 11) : (decodeFields (op ++ rest)).op = op := by
  refine BitVec.eq_of_getLsbD_eq fun i hi => ?_
  simp only [decodeFields, BitVec.getLsbD_extractLsb', BitVec.getLsbD_append]
  interval_cases i <;> simp

/-- Every word is its opcode field, its `ra` field and its low byte (R61). -/
theorem word_eq_append (w : Word) :
    (decodeFields w).op ++ (decodeFields w).ra ++ (decodeFields w).imm8 = w := by
  refine BitVec.eq_of_getLsbD_eq fun i hi => ?_
  simp only [decodeFields, BitVec.getLsbD_extractLsb', BitVec.getLsbD_append]
  interval_cases i <;> simp

end Sys2Proof
end

