-- ==== Sys2Proof/Laws/Memory.lean ====
section
/-!
SUPPORT. The laws of the two memories (spec/20_memory.md R46): a read after a write, and that a write keeps the canonical form. The read laws need
no premise on the list.
-/

namespace Sys2Proof.Machine

@[simp] theorem Memory.read_nil (a : Addr) : Memory.read [] a = Config.unwrittenCell := rfl

theorem Memory.read_cons (k : Nat) (v : Word) (m : Memory) (a : Addr) :
    Memory.read ((k, v) :: m) a = if k = a.toNat then v else Memory.read m a := rfl

theorem Memory.read_clear (m : Memory) (a b : Addr) :
    (m.clear a).read b = if b = a then Config.unwrittenCell else m.read b := by
  induction m with
  | nil => simp [Memory.clear]
  | cons c m ih =>
    obtain ⟨k, v⟩ := c
    unfold Memory.clear at ih ⊢
    by_cases hk : k = a.toNat
    · rw [List.filter_cons_of_neg (by simp [hk]), ih, Memory.read_cons]
      by_cases hb : b = a
      · simp [hb]
      · have : k ≠ b.toNat := fun h => hb (BitVec.eq_of_toNat_eq (by omega))
        simp [hb, this]
    · rw [List.filter_cons_of_pos (by simp [hk]), Memory.read_cons, ih, Memory.read_cons]
      by_cases hb : b = a
      · subst hb; simp [hk]
      · simp [hb]

theorem Memory.read_insert {m : Memory} {a : Addr} (v : Word) (b : Addr) (h : ∀ c ∈ m, c.1 ≠ a.toNat) :
    (m.insert a v).read b = if b = a then v else m.read b := by
  have key : a.toNat = b.toNat ↔ b = a := ⟨fun e => BitVec.eq_of_toNat_eq e.symm, fun e => by rw [e]⟩
  induction m with
  | nil => simp [Memory.insert, Memory.read_cons, key]
  | cons c m ih =>
    obtain ⟨k, u⟩ := c
    have hk : k ≠ a.toNat := h (k, u) (by simp)
    have ih := ih fun c hc => h c (by simp [hc])
    unfold Memory.insert
    split
    · simp [Memory.read_cons, key]
    · rw [Memory.read_cons, ih, Memory.read_cons]
      by_cases hb : b = a
      · subst hb; simp [hk]
      · simp [hb]

theorem Memory.mem_clear {m : Memory} {a : Addr} {c : Nat × Word} : c ∈ m.clear a ↔ c ∈ m ∧ c.1 ≠ a.toNat := by
  simp [Memory.clear]

/-- `MemWrite` changes exactly the addressed cell (R46), in any list. -/
theorem Memory.read_write (m : Memory) (a b : Addr) (v : Word) :
    (m.write a v).read b = if b = a then v else m.read b := by
  unfold Memory.write
  split
  · next hv => rw [Memory.read_clear, hv]
  · rw [Memory.read_insert v b fun c hc => (Memory.mem_clear.1 hc).2, Memory.read_clear]
    split <;> rfl

theorem Memory.wf_iff {m : Memory} {size : Nat} :
    m.wf size = true ↔
      m.Pairwise (fun c d => c.1 < d.1) ∧ ∀ c ∈ m, c.1 < size ∧ c.2 ≠ Config.unwrittenCell := by
  simp [Memory.wf]

theorem Memory.mem_insert {m : Memory} {a : Addr} {v : Word} {c : Nat × Word} :
    c ∈ m.insert a v ↔ c = (a.toNat, v) ∨ c ∈ m := by
  induction m with
  | nil => simp [Memory.insert]
  | cons d m ih =>
    obtain ⟨k, u⟩ := d
    unfold Memory.insert
    split
    · simp
    · simp only [List.mem_cons, ih]
      tauto

theorem Memory.pairwise_insert {m : Memory} {a : Addr} {v : Word} (hm : m.Pairwise fun c d => c.1 < d.1)
    (h : ∀ c ∈ m, c.1 ≠ a.toNat) : (m.insert a v).Pairwise fun c d => c.1 < d.1 := by
  induction m with
  | nil => simp [Memory.insert]
  | cons d m ih =>
    obtain ⟨k, u⟩ := d
    have hk : k ≠ a.toNat := h (k, u) (by simp)
    obtain ⟨hd, hm'⟩ := List.pairwise_cons.1 hm
    unfold Memory.insert
    split
    · next hlt =>
      refine List.pairwise_cons.2 ⟨fun c hc => ?_, hm⟩
      rcases List.mem_cons.1 hc with rfl | hc
      · exact hlt
      · exact Nat.lt_trans hlt (hd c hc)
    · refine List.pairwise_cons.2 ⟨fun c hc => ?_, ih hm' fun c hc => h c (by simp [hc])⟩
      rcases Memory.mem_insert.1 hc with rfl | hc
      · show k < a.toNat; omega
      · exact hd c hc

/-- Every write keeps the canonical form of a memory that has all 256 addresses. -/
theorem Memory.wf_write {m : Memory} {size : Nat} (hsize : 256 ≤ size) (hm : m.wf size = true) (a : Addr) (v : Word) :
    (m.write a v).wf size = true := by
  obtain ⟨hp, hb⟩ := Memory.wf_iff.1 hm
  have hp' : (m.clear a).Pairwise fun c d => c.1 < d.1 := hp.filter _
  unfold Memory.write
  split
  · exact Memory.wf_iff.2 ⟨hp', fun c hc => hb c (Memory.mem_clear.1 hc).1⟩
  · next hv =>
    refine Memory.wf_iff.2 ⟨Memory.pairwise_insert hp' fun c hc => (Memory.mem_clear.1 hc).2, fun c hc => ?_⟩
    rcases Memory.mem_insert.1 hc with rfl | hc
    · exact ⟨by have := a.isLt; show a.toNat < size; omega, hv⟩
    · exact hb c (Memory.mem_clear.1 hc).1

/-- The reset memories are in canonical form. -/
theorem State.reset_memories_wf :
    State.reset.imem.wf Config.imemSize = true ∧ State.reset.dmem.wf Config.dmemSize = true := by
  decide

end Sys2Proof.Machine
end

