-- ==== Sys2Proof/Laws/State.lean ====
section
/-!
SUPPORT. One lemma per field of State and per update: the updated field has its new value, every other field its old one.
-/

namespace Sys2Proof.Machine

@[simp] theorem State.writeReg_x (s : State) (r : RegIdx) (v : Word) : (s.writeReg r v).x = s.x.set r.toNat v r.isLt := rfl
@[simp] theorem State.writeReg_pc (s : State) (r : RegIdx) (v : Word) : (s.writeReg r v).pc = s.pc := rfl
@[simp] theorem State.writeReg_ir (s : State) (r : RegIdx) (v : Word) : (s.writeReg r v).ir = s.ir := rfl
@[simp] theorem State.writeReg_flag (s : State) (r : RegIdx) (v : Word) : (s.writeReg r v).flag = s.flag := rfl
@[simp] theorem State.writeReg_imem (s : State) (r : RegIdx) (v : Word) : (s.writeReg r v).imem = s.imem := rfl
@[simp] theorem State.writeReg_dmem (s : State) (r : RegIdx) (v : Word) : (s.writeReg r v).dmem = s.dmem := rfl
@[simp] theorem State.writeReg_run (s : State) (r : RegIdx) (v : Word) : (s.writeReg r v).run = s.run := rfl
@[simp] theorem State.writeReg_trace (s : State) (r : RegIdx) (v : Word) : (s.writeReg r v).trace = s.trace := rfl

@[simp] theorem State.memWrite_x (s : State) (a : Addr) (v : Word) : (s.memWrite a v).x = s.x := rfl
@[simp] theorem State.memWrite_pc (s : State) (a : Addr) (v : Word) : (s.memWrite a v).pc = s.pc := rfl
@[simp] theorem State.memWrite_ir (s : State) (a : Addr) (v : Word) : (s.memWrite a v).ir = s.ir := rfl
@[simp] theorem State.memWrite_flag (s : State) (a : Addr) (v : Word) : (s.memWrite a v).flag = s.flag := rfl
@[simp] theorem State.memWrite_imem (s : State) (a : Addr) (v : Word) : (s.memWrite a v).imem = s.imem := rfl
@[simp] theorem State.memWrite_dmem (s : State) (a : Addr) (v : Word) : (s.memWrite a v).dmem = s.dmem.write a v := rfl
@[simp] theorem State.memWrite_run (s : State) (a : Addr) (v : Word) : (s.memWrite a v).run = s.run := rfl
@[simp] theorem State.memWrite_trace (s : State) (a : Addr) (v : Word) : (s.memWrite a v).trace = s.trace := rfl

@[simp] theorem State.fetch_x (s : State) : (s.fetch).x = s.x := rfl
@[simp] theorem State.fetch_pc (s : State) : (s.fetch).pc = s.pc := rfl
@[simp] theorem State.fetch_ir (s : State) : (s.fetch).ir = s.ifetch s.pc := rfl
@[simp] theorem State.fetch_flag (s : State) : (s.fetch).flag = s.flag := rfl
@[simp] theorem State.fetch_imem (s : State) : (s.fetch).imem = s.imem := rfl
@[simp] theorem State.fetch_dmem (s : State) : (s.fetch).dmem = s.dmem := rfl
@[simp] theorem State.fetch_run (s : State) : (s.fetch).run = s.run := rfl
@[simp] theorem State.fetch_trace (s : State) : (s.fetch).trace = s.trace := rfl

@[simp] theorem State.placeWord_x (s : State) (a : Addr) (w : Word) : (s.placeWord a w).x = s.x := rfl
@[simp] theorem State.placeWord_pc (s : State) (a : Addr) (w : Word) : (s.placeWord a w).pc = s.pc := rfl
@[simp] theorem State.placeWord_ir (s : State) (a : Addr) (w : Word) : (s.placeWord a w).ir = s.ir := rfl
@[simp] theorem State.placeWord_flag (s : State) (a : Addr) (w : Word) : (s.placeWord a w).flag = s.flag := rfl
@[simp] theorem State.placeWord_imem (s : State) (a : Addr) (w : Word) : (s.placeWord a w).imem = s.imem.write a w := rfl
@[simp] theorem State.placeWord_dmem (s : State) (a : Addr) (w : Word) : (s.placeWord a w).dmem = s.dmem := rfl
@[simp] theorem State.placeWord_run (s : State) (a : Addr) (w : Word) : (s.placeWord a w).run = s.run := rfl
@[simp] theorem State.placeWord_trace (s : State) (a : Addr) (w : Word) : (s.placeWord a w).trace = s.trace := rfl

@[simp] theorem State.increment_x (s : State) : (s.increment).x = s.x := rfl
@[simp] theorem State.increment_pc (s : State) : (s.increment).pc = s.pc + 1 := rfl
@[simp] theorem State.increment_ir (s : State) : (s.increment).ir = s.ir := rfl
@[simp] theorem State.increment_flag (s : State) : (s.increment).flag = s.flag := rfl
@[simp] theorem State.increment_imem (s : State) : (s.increment).imem = s.imem := rfl
@[simp] theorem State.increment_dmem (s : State) : (s.increment).dmem = s.dmem := rfl
@[simp] theorem State.increment_run (s : State) : (s.increment).run = s.run := rfl
@[simp] theorem State.increment_trace (s : State) : (s.increment).trace = s.trace := rfl

@[simp] theorem State.jumpTo_x (s : State) (a : Addr) : (s.jumpTo a).x = s.x := rfl
@[simp] theorem State.jumpTo_pc (s : State) (a : Addr) : (s.jumpTo a).pc = a := rfl
@[simp] theorem State.jumpTo_ir (s : State) (a : Addr) : (s.jumpTo a).ir = s.ir := rfl
@[simp] theorem State.jumpTo_flag (s : State) (a : Addr) : (s.jumpTo a).flag = s.flag := rfl
@[simp] theorem State.jumpTo_imem (s : State) (a : Addr) : (s.jumpTo a).imem = s.imem := rfl
@[simp] theorem State.jumpTo_dmem (s : State) (a : Addr) : (s.jumpTo a).dmem = s.dmem := rfl
@[simp] theorem State.jumpTo_run (s : State) (a : Addr) : (s.jumpTo a).run = s.run := rfl
@[simp] theorem State.jumpTo_trace (s : State) (a : Addr) : (s.jumpTo a).trace = s.trace := rfl

@[simp] theorem State.jumpIf_x (s : State) (b : Bool) (a : Addr) : (s.jumpIf b a).x = s.x := rfl
@[simp] theorem State.jumpIf_pc (s : State) (b : Bool) (a : Addr) : (s.jumpIf b a).pc = if b then a else s.pc := rfl
@[simp] theorem State.jumpIf_ir (s : State) (b : Bool) (a : Addr) : (s.jumpIf b a).ir = s.ir := rfl
@[simp] theorem State.jumpIf_flag (s : State) (b : Bool) (a : Addr) : (s.jumpIf b a).flag = s.flag := rfl
@[simp] theorem State.jumpIf_imem (s : State) (b : Bool) (a : Addr) : (s.jumpIf b a).imem = s.imem := rfl
@[simp] theorem State.jumpIf_dmem (s : State) (b : Bool) (a : Addr) : (s.jumpIf b a).dmem = s.dmem := rfl
@[simp] theorem State.jumpIf_run (s : State) (b : Bool) (a : Addr) : (s.jumpIf b a).run = s.run := rfl
@[simp] theorem State.jumpIf_trace (s : State) (b : Bool) (a : Addr) : (s.jumpIf b a).trace = s.trace := rfl
@[simp] theorem State.readReg_jumpIf (s : State) (b : Bool) (a : Addr) (i : RegIdx) : (s.jumpIf b a).readReg i = s.readReg i := rfl
@[simp] theorem State.memRead_jumpIf (s : State) (b : Bool) (a : Addr) (i : Addr) : (s.jumpIf b a).memRead i = s.memRead i := rfl
@[simp] theorem State.ifetch_jumpIf (s : State) (b : Bool) (a : Addr) (i : Addr) : (s.jumpIf b a).ifetch i = s.ifetch i := rfl

@[simp] theorem State.setFlag_x (s : State) (b : Bool) : (s.setFlag b).x = s.x := rfl
@[simp] theorem State.setFlag_pc (s : State) (b : Bool) : (s.setFlag b).pc = s.pc := rfl
@[simp] theorem State.setFlag_ir (s : State) (b : Bool) : (s.setFlag b).ir = s.ir := rfl
@[simp] theorem State.setFlag_flag (s : State) (b : Bool) : (s.setFlag b).flag = b := rfl
@[simp] theorem State.setFlag_imem (s : State) (b : Bool) : (s.setFlag b).imem = s.imem := rfl
@[simp] theorem State.setFlag_dmem (s : State) (b : Bool) : (s.setFlag b).dmem = s.dmem := rfl
@[simp] theorem State.setFlag_run (s : State) (b : Bool) : (s.setFlag b).run = s.run := rfl
@[simp] theorem State.setFlag_trace (s : State) (b : Bool) : (s.setFlag b).trace = s.trace := rfl

@[simp] theorem State.emitTrace_x (s : State) : (s.emitTrace).x = s.x := rfl
@[simp] theorem State.emitTrace_pc (s : State) : (s.emitTrace).pc = s.pc := rfl
@[simp] theorem State.emitTrace_ir (s : State) : (s.emitTrace).ir = s.ir := rfl
@[simp] theorem State.emitTrace_flag (s : State) : (s.emitTrace).flag = s.flag := rfl
@[simp] theorem State.emitTrace_imem (s : State) : (s.emitTrace).imem = s.imem := rfl
@[simp] theorem State.emitTrace_dmem (s : State) : (s.emitTrace).dmem = s.dmem := rfl
@[simp] theorem State.emitTrace_run (s : State) : (s.emitTrace).run = s.run := rfl
@[simp] theorem State.emitTrace_trace (s : State) : (s.emitTrace).trace = s.traceEvent :: s.trace := rfl

@[simp] theorem State.halt_x (s : State) : (s.halt).x = s.x := rfl
@[simp] theorem State.halt_pc (s : State) : (s.halt).pc = s.pc := rfl
@[simp] theorem State.halt_ir (s : State) : (s.halt).ir = s.ir := rfl
@[simp] theorem State.halt_flag (s : State) : (s.halt).flag = s.flag := rfl
@[simp] theorem State.halt_imem (s : State) : (s.halt).imem = s.imem := rfl
@[simp] theorem State.halt_dmem (s : State) : (s.halt).dmem = s.dmem := rfl
@[simp] theorem State.halt_run (s : State) : (s.halt).run = .halted := rfl
@[simp] theorem State.halt_trace (s : State) : (s.halt).trace = s.trace := rfl

@[simp] theorem State.raiseIllegalOpcode_x (s : State) : (s.raiseIllegalOpcode).x = s.x := rfl
@[simp] theorem State.raiseIllegalOpcode_pc (s : State) : (s.raiseIllegalOpcode).pc = s.pc := rfl
@[simp] theorem State.raiseIllegalOpcode_ir (s : State) : (s.raiseIllegalOpcode).ir = s.ir := rfl
@[simp] theorem State.raiseIllegalOpcode_flag (s : State) : (s.raiseIllegalOpcode).flag = s.flag := rfl
@[simp] theorem State.raiseIllegalOpcode_imem (s : State) : (s.raiseIllegalOpcode).imem = s.imem := rfl
@[simp] theorem State.raiseIllegalOpcode_dmem (s : State) : (s.raiseIllegalOpcode).dmem = s.dmem := rfl
@[simp] theorem State.raiseIllegalOpcode_run (s : State) : (s.raiseIllegalOpcode).run = .faulted s.illegalOpcodeRecord := rfl
@[simp] theorem State.raiseIllegalOpcode_trace (s : State) : (s.raiseIllegalOpcode).trace = s.trace := rfl

@[simp] theorem State.beginExecute_x (s : State) : s.beginExecute.x = s.x := rfl
@[simp] theorem State.beginExecute_pc (s : State) : s.beginExecute.pc = s.pc + 1 := rfl
@[simp] theorem State.beginExecute_ir (s : State) : s.beginExecute.ir = s.ir := rfl
@[simp] theorem State.beginExecute_flag (s : State) : s.beginExecute.flag = s.flag := rfl
@[simp] theorem State.beginExecute_imem (s : State) : s.beginExecute.imem = s.imem := rfl
@[simp] theorem State.beginExecute_dmem (s : State) : s.beginExecute.dmem = s.dmem := rfl
@[simp] theorem State.beginExecute_run (s : State) : s.beginExecute.run = s.run := rfl
@[simp] theorem State.beginExecute_trace (s : State) : s.beginExecute.trace = s.traceEvent :: s.trace := rfl

@[simp] theorem State.memRead_writeReg (s : State) (r : RegIdx) (v : Word) (i : Addr) : (s.writeReg r v).memRead i = s.memRead i := rfl
@[simp] theorem State.ifetch_writeReg (s : State) (r : RegIdx) (v : Word) (i : Addr) : (s.writeReg r v).ifetch i = s.ifetch i := rfl
@[simp] theorem State.readReg_memWrite (s : State) (a : Addr) (v : Word) (i : RegIdx) : (s.memWrite a v).readReg i = s.readReg i := rfl
@[simp] theorem State.ifetch_memWrite (s : State) (a : Addr) (v : Word) (i : Addr) : (s.memWrite a v).ifetch i = s.ifetch i := rfl
@[simp] theorem State.readReg_fetch (s : State) (i : RegIdx) : (s.fetch).readReg i = s.readReg i := rfl
@[simp] theorem State.memRead_fetch (s : State) (i : Addr) : (s.fetch).memRead i = s.memRead i := rfl
@[simp] theorem State.ifetch_fetch (s : State) (i : Addr) : (s.fetch).ifetch i = s.ifetch i := rfl
@[simp] theorem State.readReg_placeWord (s : State) (a : Addr) (w : Word) (i : RegIdx) : (s.placeWord a w).readReg i = s.readReg i := rfl
@[simp] theorem State.memRead_placeWord (s : State) (a : Addr) (w : Word) (i : Addr) : (s.placeWord a w).memRead i = s.memRead i := rfl
@[simp] theorem State.readReg_increment (s : State) (i : RegIdx) : (s.increment).readReg i = s.readReg i := rfl
@[simp] theorem State.memRead_increment (s : State) (i : Addr) : (s.increment).memRead i = s.memRead i := rfl
@[simp] theorem State.ifetch_increment (s : State) (i : Addr) : (s.increment).ifetch i = s.ifetch i := rfl
@[simp] theorem State.readReg_jumpTo (s : State) (a : Addr) (i : RegIdx) : (s.jumpTo a).readReg i = s.readReg i := rfl
@[simp] theorem State.memRead_jumpTo (s : State) (a : Addr) (i : Addr) : (s.jumpTo a).memRead i = s.memRead i := rfl
@[simp] theorem State.ifetch_jumpTo (s : State) (a : Addr) (i : Addr) : (s.jumpTo a).ifetch i = s.ifetch i := rfl
@[simp] theorem State.readReg_setFlag (s : State) (b : Bool) (i : RegIdx) : (s.setFlag b).readReg i = s.readReg i := rfl
@[simp] theorem State.memRead_setFlag (s : State) (b : Bool) (i : Addr) : (s.setFlag b).memRead i = s.memRead i := rfl
@[simp] theorem State.ifetch_setFlag (s : State) (b : Bool) (i : Addr) : (s.setFlag b).ifetch i = s.ifetch i := rfl
@[simp] theorem State.readReg_emitTrace (s : State) (i : RegIdx) : (s.emitTrace).readReg i = s.readReg i := rfl
@[simp] theorem State.memRead_emitTrace (s : State) (i : Addr) : (s.emitTrace).memRead i = s.memRead i := rfl
@[simp] theorem State.ifetch_emitTrace (s : State) (i : Addr) : (s.emitTrace).ifetch i = s.ifetch i := rfl
@[simp] theorem State.readReg_halt (s : State) (i : RegIdx) : (s.halt).readReg i = s.readReg i := rfl
@[simp] theorem State.memRead_halt (s : State) (i : Addr) : (s.halt).memRead i = s.memRead i := rfl
@[simp] theorem State.ifetch_halt (s : State) (i : Addr) : (s.halt).ifetch i = s.ifetch i := rfl
@[simp] theorem State.readReg_raiseIllegalOpcode (s : State) (i : RegIdx) : (s.raiseIllegalOpcode).readReg i = s.readReg i := rfl
@[simp] theorem State.memRead_raiseIllegalOpcode (s : State) (i : Addr) : (s.raiseIllegalOpcode).memRead i = s.memRead i := rfl
@[simp] theorem State.ifetch_raiseIllegalOpcode (s : State) (i : Addr) : (s.raiseIllegalOpcode).ifetch i = s.ifetch i := rfl
@[simp] theorem State.readReg_beginExecute (s : State) (i : RegIdx) : (s.beginExecute).readReg i = s.readReg i := rfl
@[simp] theorem State.memRead_beginExecute (s : State) (i : Addr) : (s.beginExecute).memRead i = s.memRead i := rfl
@[simp] theorem State.ifetch_beginExecute (s : State) (i : Addr) : (s.beginExecute).ifetch i = s.ifetch i := rfl

end Sys2Proof.Machine
end

