-- ==== Sys2Proof/Laws/Register.lean ====
section
/-!
SUPPORT. What a read gives after a write, for registers and both memories (spec/00_scope.md R8, spec/20_memory.md R46).
-/

namespace Sys2Proof.Machine

theorem State.readReg_writeReg (s : State) (r i : RegIdx) (v : Word) :
    (s.writeReg r v).readReg i = if i = r then v else s.readReg i := by
  by_cases h : i = r
  · subst h; simp [State.readReg, State.writeReg]
  · have hn : r.toNat ≠ i.toNat := fun e => h (BitVec.eq_of_toNat_eq e.symm)
    simp [State.readReg, State.writeReg, h, Vector.getElem_set_ne _ _ hn]

@[simp] theorem State.readReg_writeReg_self (s : State) (r : RegIdx) (v : Word) : (s.writeReg r v).readReg r = v := by
  simp [State.readReg_writeReg]

@[simp] theorem State.readReg_reset (i : RegIdx) : State.reset.readReg i = Config.resetRegister := by
  simp [State.readReg, State.reset]

theorem State.memRead_memWrite (s : State) (a b : Addr) (v : Word) :
    (s.memWrite a v).memRead b = if b = a then v else s.memRead b :=
  Memory.read_write s.dmem a b v

@[simp] theorem State.memRead_memWrite_self (s : State) (a : Addr) (v : Word) : (s.memWrite a v).memRead a = v := by
  simp [State.memRead_memWrite]

theorem State.ifetch_placeWord (s : State) (a b : Addr) (w : Word) :
    (s.placeWord a w).ifetch b = if b = a then w else s.ifetch b :=
  Memory.read_write s.imem a b w

end Sys2Proof.Machine
end

