-- ==== Sys2Proof/Laws/Frame.lean ====
section
/-!
SUPPORT. What the shared operations leave alone, in the terms of Safety.lean (spec/40_execution_cycle.md R83, R84).
-/

namespace Sys2Proof.Machine

theorem toNat_increment (a : Addr) : (a + 1).toNat = (a.toNat + 1) % 256 := by
  simp [BitVec.toNat_add]

theorem unchanged_beginExecute (s : State) : Unchanged none none s s.beginExecute :=
  ⟨fun _ _ => rfl, fun _ _ => rfl, rfl, rfl⟩

theorem sequential_beginExecute (s : State) : Sequential s s.beginExecute :=
  ⟨toNat_increment s.pc, rfl, rfl, rfl⟩

theorem unchanged_writeReg (s : State) (r : RegIdx) (v : Word) :
    Unchanged (some r) none s (s.beginExecute.writeReg r v) where
  regs i hi := by
    rw [State.readReg_writeReg, if_neg fun e => hi (by rw [e]), State.readReg_beginExecute]
  data _ _ := rfl
  imem := rfl
  ir := rfl

theorem sequential_writeReg (s : State) (r : RegIdx) (v : Word) : Sequential s (s.beginExecute.writeReg r v) :=
  ⟨toNat_increment s.pc, rfl, rfl, rfl⟩

theorem unchanged_memWrite (s : State) (a : Addr) (v : Word) :
    Unchanged none (some a) s (s.beginExecute.memWrite a v) where
  regs _ _ := rfl
  data b hb := by
    rw [State.memRead_memWrite, if_neg fun e => hb (by rw [e]), State.memRead_beginExecute]
  imem := rfl
  ir := rfl

theorem sequential_memWrite (s : State) (a : Addr) (v : Word) : Sequential s (s.beginExecute.memWrite a v) :=
  ⟨toNat_increment s.pc, rfl, rfl, rfl⟩

theorem unchanged_setFlag (s : State) (b : Bool) : Unchanged none none s (s.beginExecute.setFlag b) :=
  ⟨fun _ _ => rfl, fun _ _ => rfl, rfl, rfl⟩

theorem unchanged_jumpTo (s : State) (a : Addr) : Unchanged none none s (s.beginExecute.jumpTo a) :=
  ⟨fun _ _ => rfl, fun _ _ => rfl, rfl, rfl⟩

theorem unchanged_jumpIf (s : State) (b : Bool) (a : Addr) : Unchanged none none s (s.beginExecute.jumpIf b a) :=
  ⟨fun _ _ => rfl, fun _ _ => rfl, rfl, rfl⟩

theorem unchanged_halt (s : State) : Unchanged none none s s.halt :=
  ⟨fun _ _ => rfl, fun _ _ => rfl, rfl, rfl⟩

theorem unchanged_raiseIllegalOpcode (s : State) : Unchanged none none s s.raiseIllegalOpcode :=
  ⟨fun _ _ => rfl, fun _ _ => rfl, rfl, rfl⟩

end Sys2Proof.Machine
end

