-- ==== Sys2Proof/Laws/PerInstr.lean ====
section
/-!
SUPPORT. Statements made for every instruction, one lemma per constructor.

Family EncodedOpcode: the word the encoder produces for an instruction carries that instruction's opcode value in its opcode field (spec/30_encoding.md
R66, R67), so it has bit 15 clear (R79).
-/

namespace Sys2Proof.Laws.EncodedOpcode

/-- The opcode field of the encoded word is the instruction's opcode value. -/
def Statement (i : Instr) : Prop :=
  ∀ w, encode i = some w → i.opcode = some (decodeFields w).op.toNat

theorem of_rr {op ra rb : Nat} {w : Word} (hop : op < 32) (h : encodeRR op ra rb = some w) :
    (decodeFields w).op.toNat = op := by
  unfold encodeRR at h
  split at h
  · rw [← Option.some.inj h, word_rr, decodeFields_append, BitVec.toNat_ofNat]; omega
  · cases h

theorem of_r {op ra : Nat} {w : Word} (hop : op < 32) (h : encodeR op ra = some w) : (decodeFields w).op.toNat = op := by
  unfold encodeR at h
  split at h
  · rw [← Option.some.inj h, word_r, decodeFields_append_byte, BitVec.toNat_ofNat]; omega
  · cases h

theorem of_ri {op ra val : Nat} {w : Word} (hop : op < 32) (h : encodeRI op ra val = some w) :
    (decodeFields w).op.toNat = op := by
  unfold encodeRI at h
  split at h
  · rw [← Option.some.inj h, word_ri, decodeFields_append_byte, BitVec.toNat_ofNat]; omega
  · cases h

theorem of_a {op addr : Nat} {w : Word} (hop : op < 32) (h : encodeA op addr = some w) :
    (decodeFields w).op.toNat = op := by
  unfold encodeA at h
  split at h
  · rw [← Option.some.inj h, word_a, decodeFields_append_byte, BitVec.toNat_ofNat]; omega
  · cases h

theorem of_z {op : Nat} {w : Word} (hop : op < 32) (h : encodeZ op = some w) : (decodeFields w).op.toNat = op := by
  unfold encodeZ at h
  split at h
  · rw [← Option.some.inj h, word_z, decodeFields_append_op, BitVec.toNat_ofNat]; omega
  · cases h

theorem mov (ra rb : RegIdx) : Statement (.mov ra rb) := fun _ h => congrArg some (of_rr (by omega) h).symm
theorem add (ra rb : RegIdx) : Statement (.add ra rb) := fun _ h => congrArg some (of_rr (by omega) h).symm
theorem sub (ra rb : RegIdx) : Statement (.sub ra rb) := fun _ h => congrArg some (of_rr (by omega) h).symm
theorem and (ra rb : RegIdx) : Statement (.and ra rb) := fun _ h => congrArg some (of_rr (by omega) h).symm
theorem or (ra rb : RegIdx) : Statement (.or ra rb) := fun _ h => congrArg some (of_rr (by omega) h).symm
theorem sl (ra : RegIdx) : Statement (.sl ra) := fun _ h => congrArg some (of_r (by omega) h).symm
theorem sr (ra : RegIdx) : Statement (.sr ra) := fun _ h => congrArg some (of_r (by omega) h).symm
theorem sra (ra : RegIdx) : Statement (.sra ra) := fun _ h => congrArg some (of_r (by omega) h).symm
theorem ldl (ra : RegIdx) (v : Imm) : Statement (.ldl ra v) := fun _ h => congrArg some (of_ri (by omega) h).symm
theorem ldh (ra : RegIdx) (v : Imm) : Statement (.ldh ra v) := fun _ h => congrArg some (of_ri (by omega) h).symm
theorem cmp (ra rb : RegIdx) : Statement (.cmp ra rb) := fun _ h => congrArg some (of_rr (by omega) h).symm
theorem je (a : Addr) : Statement (.je a) := fun _ h => congrArg some (of_a (by omega) h).symm
theorem jmp (a : Addr) : Statement (.jmp a) := fun _ h => congrArg some (of_a (by omega) h).symm
theorem ld (ra : RegIdx) (a : Addr) : Statement (.ld ra a) := fun _ h => congrArg some (of_ri (by omega) h).symm
theorem st (ra : RegIdx) (a : Addr) : Statement (.st ra a) := fun _ h => congrArg some (of_ri (by omega) h).symm
theorem hlt : Statement .hlt := fun _ h => congrArg some (of_z (by omega) h).symm
theorem reserved : Statement .reserved := fun _ h => nomatch h

end Sys2Proof.Laws.EncodedOpcode
end

