-- ==== Sys2Proof/Laws/Step.lean ====
section
/-!
SUPPORT. What a step can do, said once (spec/40_execution_cycle.md R80): it does the instruction of the word at `pc` on a Running machine, and there is
none otherwise.
-/

namespace Sys2Proof.Machine

theorem endOfRun_eq_none {s : State} : s.endOfRun = none ↔ s.run = .running := by
  unfold State.endOfRun
  split <;> simp_all

theorem step_of_running {s : State} (h : s.run = .running) : step s = exec (decode (s.ifetch s.pc)) s.fetch := by
  simp [step, endOfRun_eq_none.2 h]

/-- A step that answers a next state was taken on a Running machine and did the fetched instruction. -/
theorem step_next {s t : State} (h : step s = .next t) :
    s.run = .running ∧ exec (decode (s.ifetch s.pc)) s.fetch = .next t := by
  unfold step at h
  split at h
  · cases h
  · next hn => exact ⟨endOfRun_eq_none.1 hn, by simpa using h⟩

/-- Where the next step fetches, the placed word is (log entry 7). -/
theorem fetch_withFetchWord (s : State) (nbits w : Nat) :
    (s.withFetchWord nbits w).fetch.ir = BitVec.ofNat 16 (w % 2 ^ nbits) := by
  have := State.ifetch_placeWord s s.pc s.pc (BitVec.ofNat 16 (w % 2 ^ nbits))
  simpa [State.withFetchWord, State.fetch, State.ifetch] using this

/-- A step on the state with a placed word runs that word. -/
theorem step_withFetchWord (s : State) (nbits w : Nat) :
    step (s.withFetchWord nbits w) =
      exec (decode (BitVec.ofNat 16 (w % 2 ^ nbits))) (s.withFetchWord nbits w).fetch := by
  have h : (s.withFetchWord nbits w).run = .running := rfl
  rw [step, endOfRun_eq_none.2 h, fetch_withFetchWord]

end Sys2Proof.Machine
end

