-- ==== Sys2Proof/Tests/Slice0.lean ====
section
/-!
SUPPORT. The model's own tests. Expected values come from the vectors of spec/95_test_vectors.md (E, V, Q, P), named in each comment. The second half gives, for
each statement of Certificates/Slice0/Obligations.lean with hypotheses, a concrete state and operands that meet them together.
-/

namespace Sys2Proof.Tests

open Sys2Proof.Machine

/-- A Running machine with one instruction word at `pc`, registers and flag as given, everything else as at reset. -/
def start (pc : Addr) (w : Word) (regs : List (RegIdx × Word)) (flag : Bool) : State :=
  regs.foldl (fun s c => s.writeReg c.1 c.2) { (State.reset.placeWord pc w) with pc := pc, flag := flag }

/-- A state with one more data cell written. -/
def withData (s : State) (a : Addr) (v : Word) : State :=
  s.memWrite a v

/-- The state a step answers; the state itself where there is none. -/
def after (s : State) : State :=
  match step s with
  | .next t => t
  | .fault _ => s
  | .refused _ => s

/-- A step answers a next state. -/
def isNext (s : State) : Bool :=
  match step s with
  | .next _ => true
  | .fault _ => false
  | .refused _ => false

/-- Why a step answers none. -/
def stopped (s : State) : Option Fault :=
  match step s with
  | .next _ => none
  | .fault r => some r
  | .refused _ => none

theorem step_eq_after {s : State} (h : isNext s = true) : step s = .next (after s) := by
  unfold isNext at h
  unfold after
  split at h <;> simp_all

/-- An execution whose first step does `i`. -/
theorem run_cons {s t : State} {i : Instr} {is : List Instr} (h : isNext s = true) (hi : decode (s.ifetch s.pc) = i)
    (rest : Run (after s) is t) : Run s (i :: is) t :=
  hi ▸ Run.cons (step_eq_after h) rest

/-! ## Encodings: table E of spec/95_test_vectors.md, written out bit by bit, with the class each decode clause names -/

/-- E1. -/
theorem test_word_mov :
    (0b0000000101000000 : Word) &&& 0xF800 = 0x0000 ∧ decode 0b0000000101000000 = .mov 1 2 ∧ encode (.mov 1 2) = some 0b0000000101000000 := by decide

/-- E2. -/
theorem test_word_add :
    (0b0000101110000000 : Word) &&& 0xF800 = 0x0800 ∧ decode 0b0000101110000000 = .add 3 4 ∧ encode (.add 3 4) = some 0b0000101110000000 := by decide

/-- E3. -/
theorem test_word_sub :
    (0b0001000000100000 : Word) &&& 0xF800 = 0x1000 ∧ decode 0b0001000000100000 = .sub 0 1 ∧ encode (.sub 0 1) = some 0b0001000000100000 := by decide

/-- E4. -/
theorem test_word_and :
    (0b0001110111000000 : Word) &&& 0xF800 = 0x1800 ∧ decode 0b0001110111000000 = .and 5 6 ∧ encode (.and 5 6) = some 0b0001110111000000 := by decide

/-- E5. -/
theorem test_word_or :
    (0b0010011100000000 : Word) &&& 0xF800 = 0x2000 ∧ decode 0b0010011100000000 = .or 7 0 ∧ encode (.or 7 0) = some 0b0010011100000000 := by decide

/-- E6. -/
theorem test_word_sl :
    (0b0010101000000000 : Word) &&& 0xF800 = 0x2800 ∧ decode 0b0010101000000000 = .sl 2 ∧ encode (.sl 2) = some 0b0010101000000000 := by decide

/-- E7. -/
theorem test_word_sr :
    (0b0011001000000000 : Word) &&& 0xF800 = 0x3000 ∧ decode 0b0011001000000000 = .sr 2 ∧ encode (.sr 2) = some 0b0011001000000000 := by decide

/-- E8. -/
theorem test_word_sra :
    (0b0011101000000000 : Word) &&& 0xF800 = 0x3800 ∧ decode 0b0011101000000000 = .sra 2 ∧ encode (.sra 2) = some 0b0011101000000000 := by decide

/-- E9. -/
theorem test_word_ldl :
    (0b0100001110101011 : Word) &&& 0xF800 = 0x4000 ∧ decode 0b0100001110101011 = .ldl 3 0xAB ∧ encode (.ldl 3 0xAB) = some 0b0100001110101011 := by decide

/-- E10. -/
theorem test_word_ldh :
    (0b0100101111001101 : Word) &&& 0xF800 = 0x4800 ∧ decode 0b0100101111001101 = .ldh 3 0xCD ∧ encode (.ldh 3 0xCD) = some 0b0100101111001101 := by decide

/-- E11. -/
theorem test_word_cmp :
    (0b0101001001100000 : Word) &&& 0xF800 = 0x5000 ∧ decode 0b0101001001100000 = .cmp 2 3 ∧ encode (.cmp 2 3) = some 0b0101001001100000 := by decide

/-- E12. -/
theorem test_word_je :
    (0b0101100000001110 : Word) &&& 0xF800 = 0x5800 ∧ decode 0b0101100000001110 = .je 14 ∧ encode (.je 14) = some 0b0101100000001110 := by decide

/-- E13. -/
theorem test_word_jmp :
    (0b0110000000001000 : Word) &&& 0xF800 = 0x6000 ∧ decode 0b0110000000001000 = .jmp 8 ∧ encode (.jmp 8) = some 0b0110000000001000 := by decide

/-- E14. -/
theorem test_word_ld :
    (0b0110111001000000 : Word) &&& 0xF800 = 0x6800 ∧ decode 0b0110111001000000 = .ld 6 0x40 ∧ encode (.ld 6 0x40) = some 0b0110111001000000 := by decide

/-- E15. -/
theorem test_word_st :
    (0b0111000001000000 : Word) &&& 0xF800 = 0x7000 ∧ decode 0b0111000001000000 = .st 0 64 ∧ encode (.st 0 64) = some 0b0111000001000000 := by decide

/-- E16. -/
theorem test_word_hlt :
    (0b0111100000000000 : Word) &&& 0xF800 = 0x7800 ∧ decode 0b0111100000000000 = .hlt ∧ encode (.hlt) = some 0b0111100000000000 := by decide

/-- V63 to V65: the ends of the reserved half. -/
theorem test_word_reserved :
    decode 0b1000000000000000 = .reserved ∧ decode 0b1111100000000000 = .reserved ∧ decode 0xFFFF = .reserved ∧ encode .reserved = none := by decide

/-- E17 to E22. -/
theorem test_word_edges :
    decode 0x07E0 = .mov 7 7 ∧ decode 0x0000 = .mov 0 0 ∧ decode 0x77FF = .st 7 255 ∧ decode 0x6FFF = .ld 7 255 ∧
      decode 0x60FF = .jmp 255 ∧ decode 0x5800 = .je 0 := by decide

/-- The non-canonical words under table E (R68). -/
theorem test_word_ignored_bits :
    decode 0x0A3F = .add 2 1 ∧ decode 0x2AFF = .sl 2 ∧ decode 0x5F0E = .je 14 ∧ decode 0x7FFF = .hlt ∧ decode 0x7ABC = .hlt ∧
      decode 0x0001 = .mov 0 0 := by decide

/-- E23 to E25; Sra with index 10 is Sra r2 (R70, E8). -/
theorem test_encoder_truncates :
    encodeRR 0 9 10 = some 0x0140 ∧ encodeRI 8 8 0x1FF = some 0x40FF ∧ encodeA 12 0x123 = some 0x6023 ∧ encodeR 7 10 = some 0x3A00 := by decide

/-- E26 and R79: opcodes above 15, and opcodes of another format. -/
theorem test_encoder_refuses :
    encodeRR 16 0 0 = none ∧ encodeZ 31 = none ∧ encodeRR 15 0 0 = none ∧ encodeR 0 1 = none := by decide

/-- The one check of WellFormed refuses the reserved row (R79). -/
theorem test_ill_formed :
    Instr.wellFormed .reserved = false ∧ Instr.wellFormed .hlt = true ∧ (∀ ra rb, Instr.wellFormed (.mov ra rb) = true) := by decide

/-- R80: Hlt and the reserved words go through fetch only. -/
theorem test_executes :
    Instr.executes .hlt = false ∧ Instr.executes .reserved = false ∧ Instr.executes (.st 7 255) = true := by decide

/-- The host's question, with bits above `nbits` zero. -/
theorem test_table_word :
    decodeTableWord 16 0x7040 = some (.st 0 64) ∧ decodeTableWord 8 0x7040 = some (.mov 0 2) ∧ decodeTableWord 24 0 = none := by decide

/-! ## Single steps: table V of spec/95_test_vectors.md -/

/-- V1. -/
theorem test_mov_step :
    isNext (start 0 0x0140 [(1, 0x1111), (2, 0xBEEF)] false) = true ∧ (after (start 0 0x0140 [(1, 0x1111), (2, 0xBEEF)] false)).readReg 1 = 0xBEEF ∧ (after (start 0 0x0140 [(1, 0x1111), (2, 0xBEEF)] false)).readReg 2 = 0xBEEF ∧ (after (start 0 0x0140 [(1, 0x1111), (2, 0xBEEF)] false)).pc = 1 := by decide

/-- V3. -/
theorem test_mov_wraps_pc :
    isNext (start 255 0x0000 [(0, 0x1234)] false) = true ∧ (after (start 255 0x0000 [(0, 0x1234)] false)).readReg 0 = 0x1234 ∧ (after (start 255 0x0000 [(0, 0x1234)] false)).pc = 0 := by decide

/-- V5. -/
theorem test_add_carry_out :
    isNext (start 0 0x0B80 [(3, 0xFFFF), (4, 1)] true) = true ∧ (after (start 0 0x0B80 [(3, 0xFFFF), (4, 1)] true)).readReg 3 = 0 ∧ (after (start 0 0x0B80 [(3, 0xFFFF), (4, 1)] true)).flag = true ∧ (after (start 0 0x0B80 [(3, 0xFFFF), (4, 1)] true)).pc = 1 := by decide

/-- V8. -/
theorem test_add_same_register :
    isNext (start 0 0x0920 [(1, 0x8001)] false) = true ∧ (after (start 0 0x0920 [(1, 0x8001)] false)).readReg 1 = 2 := by decide

/-- V10. -/
theorem test_sub_borrow :
    isNext (start 0 0x1020 [(1, 1)] false) = true ∧ (after (start 0 0x1020 [(1, 1)] false)).readReg 0 = 0xFFFF ∧ (after (start 0 0x1020 [(1, 1)] false)).pc = 1 := by decide

/-- V14: Sub does not set the flag. -/
theorem test_sub_same_register :
    isNext (start 0 0x1480 [(4, 0xDEAD)] false) = true ∧ (after (start 0 0x1480 [(4, 0xDEAD)] false)).readReg 4 = 0 ∧ (after (start 0 0x1480 [(4, 0xDEAD)] false)).flag = false := by decide

/-- V15. -/
theorem test_and_step :
    isNext (start 0 0x1DC0 [(5, 0xF0F0), (6, 0x3C3C)] false) = true ∧ (after (start 0 0x1DC0 [(5, 0xF0F0), (6, 0x3C3C)] false)).readReg 5 = 0x3030 := by decide

/-- V17. -/
theorem test_or_step :
    isNext (start 0 0x2700 [(7, 0xF0F0), (0, 0x3C3C)] false) = true ∧ (after (start 0 0x2700 [(7, 0xF0F0), (0, 0x3C3C)] false)).readReg 7 = 0xFCFC := by decide

/-- V19. -/
theorem test_sl_step :
    isNext (start 0 0x2A00 [(2, 0x8001)] false) = true ∧ (after (start 0 0x2A00 [(2, 0x8001)] false)).readReg 2 = 2 := by decide

/-- V30. -/
theorem test_sl_ignored_bits :
    isNext (start 0 0x2AFF [(2, 3)] false) = true ∧ (after (start 0 0x2AFF [(2, 3)] false)).readReg 2 = 6 ∧ (after (start 0 0x2AFF [(2, 3)] false)).pc = 1 ∧ (after (start 0 0x2AFF [(2, 3)] false)).ir = 0x2AFF := by decide

/-- V22, the source's example. -/
theorem test_sr_step :
    isNext (start 0 0x3200 [(2, 0x8000)] false) = true ∧ (after (start 0 0x3200 [(2, 0x8000)] false)).readReg 2 = 0x4000 := by decide

/-- V23, the source's example. -/
theorem test_sra_step :
    isNext (start 0 0x3A00 [(2, 0x8000)] false) = true ∧ (after (start 0 0x3A00 [(2, 0x8000)] false)).readReg 2 = 0xC000 := by decide

/-- V28. -/
theorem test_sra_positive :
    isNext (start 0 0x3A00 [(2, 0x7FFF)] false) = true ∧ (after (start 0 0x3A00 [(2, 0x7FFF)] false)).readReg 2 = 0x3FFF := by decide

/-- V32. -/
theorem test_ldl_keeps_high :
    isNext (start 0 0x4300 [(3, 0xFFFF)] false) = true ∧ (after (start 0 0x4300 [(3, 0xFFFF)] false)).readReg 3 = 0xFF00 := by decide

/-- V33. -/
theorem test_ldl_no_sign_extension :
    isNext (start 0 0x43FF [] false) = true ∧ (after (start 0 0x43FF [] false)).readReg 3 = 0x00FF := by decide

/-- V34. -/
theorem test_ldh_step :
    isNext (start 0 0x4BCD [(3, 0x12AB)] false) = true ∧ (after (start 0 0x4BCD [(3, 0x12AB)] false)).readReg 3 = 0xCDAB := by decide

/-- V40. -/
theorem test_cmp_equal :
    isNext (start 0 0x5260 [(2, 10), (3, 10)] false) = true ∧ (after (start 0 0x5260 [(2, 10), (3, 10)] false)).flag = true ∧ (after (start 0 0x5260 [(2, 10), (3, 10)] false)).pc = 1 ∧ (after (start 0 0x5260 [(2, 10), (3, 10)] false)).x = (start 0 0x5260 [(2, 10), (3, 10)] false).x := by decide

/-- V43. -/
theorem test_cmp_unequal :
    isNext (start 0 0x5260 [(2, 0x8000)] true) = true ∧ (after (start 0 0x5260 [(2, 0x8000)] true)).flag = false := by decide

/-- V47. -/
theorem test_je_taken :
    isNext (start 255 0x58C8 [] true) = true ∧ (after (start 255 0x58C8 [] true)).pc = 200 ∧ (after (start 255 0x58C8 [] true)).flag = true := by decide

/-- V46. -/
theorem test_je_not_taken :
    isNext (start 255 0x5880 [] false) = true ∧ (after (start 255 0x5880 [] false)).pc = 0 ∧ (after (start 255 0x5880 [] false)).flag = false := by decide

/-- V50. -/
theorem test_jmp_step :
    isNext (start 13 0x6008 [] false) = true ∧ (after (start 13 0x6008 [] false)).pc = 8 := by decide

/-- V51. -/
theorem test_jmp_last :
    isNext (start 0 0x60FF [] true) = true ∧ (after (start 0 0x60FF [] true)).pc = 255 ∧ (after (start 0 0x60FF [] true)).flag = true := by decide

/-- V55. -/
theorem test_ld_step :
    isNext (withData (start 0 0x6FFF [] false) 255 0xABCD) = true ∧
      (after (withData (start 0 0x6FFF [] false) 255 0xABCD)).readReg 7 = 0xABCD := by decide

/-- V54. -/
theorem test_ld_unwritten :
    isNext (start 0 0x6E41 [(6, 0xFFFF)] false) = true ∧ (after (start 0 0x6E41 [(6, 0xFFFF)] false)).readReg 6 = 0 := by decide

/-- V57. -/
theorem test_st_step :
    isNext (start 0 0x77FF [(7, 0xFFFF)] false) = true ∧ (after (start 0 0x77FF [(7, 0xFFFF)] false)).memRead 255 = 0xFFFF ∧ (after (start 0 0x77FF [(7, 0xFFFF)] false)).memRead 254 = 0 ∧ (after (start 0 0x77FF [(7, 0xFFFF)] false)).pc = 1 := by decide

/-- V58. -/
theorem test_st_not_to_imem :
    isNext (withData (start 0 0x7100 [(1, 0x8000)] false) 0 0x1111) = true ∧
      (after (withData (start 0 0x7100 [(1, 0x8000)] false) 0 0x1111)).memRead 0 = 0x8000 ∧
      (after (withData (start 0 0x7100 [(1, 0x8000)] false) 0 0x1111)).ifetch 0 = 0x7100 := by decide

/-- V60. -/
theorem test_hlt_step :
    isNext (start 14 0x7800 [(0, 5)] true) = true ∧ (after (start 14 0x7800 [(0, 5)] true)).run = .halted ∧ (after (start 14 0x7800 [(0, 5)] true)).pc = 14 ∧ (after (start 14 0x7800 [(0, 5)] true)).ir = 0x7800 ∧ (after (start 14 0x7800 [(0, 5)] true)).readReg 0 = 5 ∧ (after (start 14 0x7800 [(0, 5)] true)).flag = true ∧ (after (start 14 0x7800 [(0, 5)] true)).trace = [] := by decide

/-- V61. -/
theorem test_hlt_ignored_bits :
    isNext (start 3 0x7FFF [] false) = true ∧ (after (start 3 0x7FFF [] false)).run = .halted ∧ (after (start 3 0x7FFF [] false)).pc = 3 ∧ (after (start 3 0x7FFF [] false)).ir = 0x7FFF := by decide

/-- V63. -/
theorem test_reserved_step :
    isNext (start 1 0x8000 [] false) = true ∧ (after (start 1 0x8000 [] false)).run = .faulted ⟨.illegalOpcode, 1, 0x8000⟩ ∧ (after (start 1 0x8000 [] false)).pc = 1 ∧ (after (start 1 0x8000 [] false)).ir = 0x8000 ∧ (after (start 1 0x8000 [] false)).statusCode = 1 := by decide

/-- V64. -/
theorem test_reserved_last :
    isNext (start 200 0xFFFF [] true) = true ∧ (after (start 200 0xFFFF [] true)).run = .faulted ⟨.illegalOpcode, 200, 0xFFFF⟩ ∧ (after (start 200 0xFFFF [] true)).pc = 200 ∧ (after (start 200 0xFFFF [] true)).flag = true := by decide

/-- V66. -/
theorem test_no_step_after_the_end :
    stopped { State.reset with run := .halted } = some .runHalted ∧
      stopped { State.reset with run := .faulted ⟨.illegalOpcode, 1, 0x8000⟩ } = some (.runFaulted ⟨.illegalOpcode, 1, 0x8000⟩) := by decide

/-- A placed word is the next one run (E21). -/
theorem test_table_word_runs :
    isNext (State.reset.withFetchWord 16 0x60FF) = true ∧ (after (State.reset.withFetchWord 16 0x60FF)).pc = 255 := by decide

/-! ## Witnesses: the hypotheses of the statements can be met -/

/-- Q4 from its Cmp: `Cmp r0, r1; Add r0, r1; Je 9; St r0, 5; Ld r2, 5` with r1 = 1, a Running machine. -/
def prog : State :=
  placeWords [0x5020, 0x0820, 0x5809, 0x7005, 0x6A05] 0 (start 0 0x5020 [(1, 1)] true)

/-- A Hlt word loaded at address 0 of a fresh machine. -/
def hltAtZero : State :=
  placeWords [0x7800] 0 State.reset

/-- A reserved word loaded at address 0 of a fresh machine. -/
def reservedAtZero : State :=
  placeWords [0x8000] 0 State.reset

theorem run_prog_store : Run (after (after (after prog))) [.st 0 5] (after (after (after (after prog)))) :=
  run_cons (by decide) (by decide) (.nil _)

/-- HltEndsTheRun: both ends of the range, and a Running machine at a Hlt word. -/
theorem test_witness_hlt :
    (0x7800 ≤ (0x7800 : Word).toNat ∧ (0x7FFF : Word).toNat ≤ 0x7FFF) ∧
      hltAtZero.run = .running ∧ decode (hltAtZero.ifetch hltAtZero.pc) = .hlt := by decide

/-- ReservedRaisesIllegalOpcode: both ends of the range, and a Running machine at a reserved word. -/
theorem test_witness_reserved :
    (0x8000 ≤ (0x8000 : Word).toNat ∧ 0x8000 ≤ (0xFFFF : Word).toNat) ∧
      reservedAtZero.run = .running ∧ decode (reservedAtZero.ifetch reservedAtZero.pc) = .reserved := by decide

/-- HandlerWritesOnlyItsOwnState: two words of one opcode, and an executed instruction that is neither jump nor Cmp. -/
theorem test_witness_handler :
    (decodeFields 0x0A20).op = (decodeFields 0x0A3F).op ∧ Instr.executes (.st 0 5) = true ∧
      Instr.isCmp (.st 0 5) = false ∧ (∀ a, Instr.st 0 5 ≠ .je a) ∧ (∀ a, Instr.st 0 5 ≠ .jmp a) ∧
      ∃ t, exec (.st 0 5) prog = .next t :=
  ⟨by decide, by decide, by decide, by decide, by decide, _, rfl⟩

/-- StepRunsDecodedInstruction, IncrementThenJumpReplaces, RunStateTransitions, TraceRecordsExecutedInstructions: a step that executes. -/
theorem test_witness_step :
    prog.run = .running ∧ step prog = .next (after prog) ∧ decode (prog.ifetch prog.pc) = .cmp 0 1 ∧
      (decode (prog.ifetch prog.pc)).executes = true :=
  ⟨by decide, step_eq_after (by decide), by decide, by decide⟩

/-- RegisterReadsAndWrites: a register Mov does not write, one it does not read, and its own destination, which it does not read. -/
theorem test_witness_registers :
    Instr.destReg (.mov 1 2) ≠ some 2 ∧ (3 : RegIdx) ∉ Instr.srcRegs (.mov 1 2) ∧ (1 : RegIdx) ∉ Instr.srcRegs (.mov 1 2) ∧
      ∃ t, exec (.mov 1 2) prog = .next t :=
  ⟨by decide, by decide, by decide, _, rfl⟩

/-- AccessesTouchOneCell: a store and a non-store, an Ld with another memory that agrees on its cell, another instruction memory that agrees on the word. -/
theorem test_witness_access :
    Instr.storeAddr (.st 0 5) ≠ some 6 ∧ Instr.storeAddr (.ld 2 5) = none ∧
      Memory.read [(5, 7), (6, 1)] 5 = Memory.read [(5, 7)] 5 ∧
      Memory.read [(0, 0x5020)] prog.pc = prog.imem.read prog.pc := by decide

/-- DefinedInstructionsNeverFault: an instruction of each kind, and a Faulted result. -/
theorem test_witness_well_formed :
    Instr.wellFormed (.st 0 5) = true ∧ Instr.wellFormed .reserved = false ∧
      (after reservedAtZero).run = .faulted ⟨.illegalOpcode, 0, 0x8000⟩ := by decide

/-- ProgramStateIsNotData: two states that differ in `pc`, `ir` and the trace. -/
theorem test_witness_same_data :
    hltAtZero.x = State.reset.x ∧ hltAtZero.flag = State.reset.flag ∧ hltAtZero.dmem = State.reset.dmem ∧
      (∃ t, exec (.add 0 1) hltAtZero = .next t) ∧
      ∃ t, exec (.add 0 1) { State.reset with pc := 7, ir := 0x1234 } = .next t :=
  ⟨by decide, by decide, by decide, ⟨_, rfl⟩, _, rfl⟩

/-- StepExactlyWhileRunning: a machine in each run state, and an execution from an ended one. -/
theorem test_witness_run_states :
    State.reset.run = .running ∧ (after hltAtZero).run = .halted ∧
      (after reservedAtZero).run = .faulted ⟨.illegalOpcode, 0, 0x8000⟩ ∧ (after hltAtZero).run ≠ .running ∧
      Run (after hltAtZero) [] (after hltAtZero) :=
  ⟨by decide, by decide, by decide, by decide, .nil _⟩

/-- InstructionMemoryIsConstant: a first step and an execution after it. -/
theorem test_witness_imem :
    step prog = .next (after prog) ∧ Run (after prog) [.add 0 1] (after (after prog)) :=
  ⟨step_eq_after (by decide), run_cons (by decide) (by decide) (.nil _)⟩

/-- FlagPersistsUntilNextCmp (Q4): a Cmp, then an Add that makes the registers equal and a Je, none of which writes the flag. -/
theorem test_witness_flag :
    Run prog [.cmp 0 1, .add 0 1, .je 9] (after (after (after prog))) ∧
      (∀ i ∈ [Instr.add 0 1, .je 9], i.isCmp = false) ∧ (after (after (after prog))).pc = 3 :=
  ⟨run_cons (by decide) (by decide) (run_cons (by decide) (by decide) (run_cons (by decide) (by decide) (.nil _))),
    by decide, by decide⟩

/-- LoadReturnsLatestStore, first clause (Q3): a store, no other store to its cell, then a load from it. -/
theorem test_witness_store_then_load :
    Run (after (after (after prog))) [.st 0 5] (after (after (after (after prog)))) ∧
      (∀ i ∈ ([] : List Instr), i.storeAddr ≠ some 5) ∧ (after (after (after (after prog)))).run = .running ∧
      decode ((after (after (after (after prog)))).ifetch (after (after (after (after prog)))).pc) = .ld 2 5 :=
  ⟨run_prog_store, by decide, by decide, by decide⟩

/-- LoadReturnsLatestStore, second clause (V54): a load of a cell never stored to, on a fresh machine. -/
theorem test_witness_load_unwritten :
    load [0x6E41] 0 State.reset = .loaded (placeWords [0x6E41] 0 State.reset) ∧
      Run (placeWords [0x6E41] 0 State.reset) [] (placeWords [0x6E41] 0 State.reset) ∧
      (placeWords [0x6E41] 0 State.reset).run = .running ∧
      decode ((placeWords [0x6E41] 0 State.reset).ifetch (placeWords [0x6E41] 0 State.reset).pc) = .ld 6 0x41 :=
  ⟨by decide, .nil _, by decide, by decide⟩

/-- NoHltWordNoEnd, NoReservedWordNoFault: the empty program (P6). -/
theorem test_witness_empty_program :
    State.reset.run = .running ∧ (∀ r, State.reset.run ≠ .faulted r) ∧ NoHltWord State.reset ∧ NoReservedWord State.reset :=
  ⟨rfl, fun _ h => (nomatch h), fun _ => (show decode 0 ≠ .hlt by decide), fun _ => (show decode 0 ≠ .reserved by decide)⟩

/-- StepKeepsInvariant, LoadKeepsInvariant: a machine with a Hlt word loaded meets the invariant, has a step, and takes another load (P4: a setup pass of
two loads). -/
theorem test_witness_invariant :
    Inv hltAtZero ∧ step hltAtZero = .next (after hltAtZero) ∧
      load [0x40AA, 0x4855] 254 hltAtZero = .loaded (placeWords [0x40AA, 0x4855] 254 hltAtZero) :=
  ⟨⟨by decide, by decide, fun h => (nomatch h), fun _ h => (nomatch h), fun _ h => (nomatch h), fun _ => by decide⟩,
    step_eq_after (by decide), by decide⟩

/-- EncoderTruncatesOperands, EncoderDomain: an opcode of each format, and a word of each encoder. -/
theorem test_witness_formats :
    formatOf 0 = some .rr ∧ formatOf 7 = some .r ∧ formatOf 14 = some .ri ∧ formatOf 12 = some .a ∧ formatOf 15 = some .z ∧
      encodeRR 0 9 10 = some 0x0140 ∧ encodeZ 15 = some 0x7800 := by decide

/-- DontCareBitsIgnored: a word with its don't-care bits set. -/
theorem test_witness_dont_care :
    (decode 0x0A3F).wellFormed = true ∧ encode (decode 0x0A3F) = some 0x0A20 := by decide

/-- OpcodeMapPartitionsWords: the first and the last row of the map are rows, and each covers a word. -/
theorem test_witness_rows :
    (⟨"Mov", 0x0000, 0xF800⟩ : OpcodeRow) ∈ opcodeTable ∧ OpcodeRow.covers ⟨"Mov", 0x0000, 0xF800⟩ 0x07FF = true ∧
      (⟨"RESERVED", 0x8000, 0x8000⟩ : OpcodeRow) ∈ opcodeTable ∧
      OpcodeRow.covers ⟨"RESERVED", 0x8000, 0x8000⟩ 0x8000 = true := by decide

/-- LoadWritesConsecutiveWords: the last cell is in bounds, one word more is not, and neither is base 256. -/
theorem test_witness_load_bounds :
    State.reset.beforeFirstStep = true ∧ load [0x7800] 255 State.reset = .loaded (placeWords [0x7800] 255 State.reset) ∧
      (placeWords [0x7800] 255 State.reset).ifetch 255 = 0x7800 ∧
      load [0x7800, 0x7800] 255 State.reset = .refused .outOfBounds ∧ load [] 256 State.reset = .refused .outOfBounds ∧
      load [0x7800] 0 (after State.reset) = .refused .runStarted := by decide

/-- RunResultMeansItsEnd: a success, a failure with its record (P5's word), and a run out of fuel (P6). -/
theorem test_witness_run_results :
    runEngine 1 hltAtZero = .success (after hltAtZero) ∧
      runEngine 1 reservedAtZero = .failure ⟨.illegalOpcode, 0, 0x8000⟩ (after reservedAtZero) ∧
      runEngine 1 State.reset = .outOfFuel (after State.reset) := by decide

/-- HostReadsAfterTheEnd: nothing to read at reset, something after a Hlt. -/
theorem test_witness_read_back :
    State.reset.readBack = none ∧ (after hltAtZero).readBack.isSome = true ∧ State.reset.statusCode = 0 ∧
      (after reservedAtZero).statusCode = 1 := by decide

/-- The per-instruction family of LAWS.json has encoded words to speak of. -/
theorem test_witness_encoded_opcode : encode (.sra 2) = some 0x3A00 ∧ Instr.opcode (.sra 2) = some 7 := by decide

end Sys2Proof.Tests
end

section
/-!
What each instruction does to the run state (spec/10_state.md R32): the executed instructions keep it, Hlt ends the run as Halted, the reserved row as
Faulted.
-/

namespace Sys2Proof.Machine

theorem exec_hlt (s : State) : exec .hlt s = .next s.halt := rfl

theorem exec_reserved (s : State) : exec .reserved s = .next s.raiseIllegalOpcode := rfl

/-- R80 treats every instruction in one of three ways: it is executed, it halts, or it is a reserved word. -/
theorem executes_or_hlt_or_reserved (i : Instr) : i.executes = true ∨ i = .hlt ∨ i = .reserved := by
  cases i with
  | hlt => exact .inr (.inl rfl)
  | reserved => exact .inr (.inr rfl)
  | _ => exact .inl rfl

theorem wellFormed_of_executes {i : Instr} (h : i.executes = true) : i.wellFormed = true := by
  cases i with
  | reserved => cases h
  | _ => rfl

/-- Opcodes 0 to 14 complete on every state and leave the run state alone: each is `beginExecute` and one write to a register, a data cell, the flag or
`pc` (R83, R84). -/
theorem exec_keeps_run {i : Instr} (h : i.executes = true) (s : State) : ∃ t, exec i s = .next t ∧ t.run = s.run := by
  cases i with
  | mov | add | sub | and | or | sl | sr | sra | ldl | ldh | ld => exact ⟨_, rfl, (sequential_writeReg s _ _).run⟩
  | st => exact ⟨_, rfl, (sequential_memWrite s _ _).run⟩
  | cmp => exact ⟨_, rfl, State.setFlag_run _ _⟩
  | je => exact ⟨_, rfl, State.jumpIf_run _ _ _⟩
  | jmp => exact ⟨_, rfl, State.jumpTo_run _ _⟩
  | hlt | reserved => cases h

/-- Settles O23: an executed instruction keeps the run state, Hlt makes it Halted, and the reserved row makes it Faulted with the record of the word. -/
theorem definedInstructionsNeverFault : Obligations.DefinedInstructionsNeverFault := by
  intro i s
  rcases executes_or_hlt_or_reserved i with hexec | rfl | rfl
  · obtain ⟨t, hnext, hrun⟩ := exec_keeps_run hexec s
    have hwf := wellFormed_of_executes hexec
    exact ⟨t, hnext, fun _ r hr => hrun ▸ hr, fun hnot => absurd (hwf.symm.trans hnot) nofun⟩
  · refine ⟨s.halt, exec_hlt s, fun _ r hr => ?_, fun hnot => (nomatch hnot)⟩
    rw [State.halt_run] at hr
    cases hr
  · exact ⟨s.raiseIllegalOpcode, exec_reserved s, fun hwf => (nomatch hwf), fun _ => State.raiseIllegalOpcode_run s⟩

end Sys2Proof.Machine
end

section
/-!
What an instruction does, as data (spec/40_execution_cycle.md R84): the one write it makes, or the end of the run it brings about. What a write changes and
keeps is then a matter of six kinds of effect, and which effect an instruction has depends on what it reads only.
-/

namespace Sys2Proof.Machine

/-- The one thing an instruction does besides the trace event and the increment (R84), or the end of the run it brings about (R86, R161). -/
inductive Effect where
  | setReg (r : RegIdx) (v : Word)
  | setCell (a : Addr) (v : Word)
  | setFlag (b : Bool)
  | jump (taken : Bool) (target : Addr)
  | halt
  | raiseIllegalOpcode

/-- The state an effect leads to. -/
def Effect.apply (e : Effect) (s : State) : State :=
  match e with
  | .setReg r v => s.beginExecute.writeReg r v
  | .setCell a v => s.beginExecute.memWrite a v
  | .setFlag b => s.beginExecute.setFlag b
  | .jump taken target => s.beginExecute.jumpIf taken target
  | .halt => s.halt
  | .raiseIllegalOpcode => s.raiseIllegalOpcode

/-- The register an effect writes. -/
def Effect.destReg : Effect → Option RegIdx
  | .setReg r _ => some r
  | .setCell _ _ | .setFlag _ | .jump _ _ | .halt | .raiseIllegalOpcode => none

/-- The effect writes the equality flag. -/
def Effect.writesFlag : Effect → Bool
  | .setFlag _ => true
  | .setReg _ _ | .setCell _ _ | .jump _ _ | .halt | .raiseIllegalOpcode => false

/-- The effect is one of an executed instruction, not the end of a run. -/
def Effect.executes : Effect → Bool
  | .setReg _ _ | .setCell _ _ | .setFlag _ | .jump _ _ => true
  | .halt | .raiseIllegalOpcode => false

/-- The effect of an instruction on a state: `exec` says the same (`exec_eq_apply_effectOf`). -/
def effectOf (i : Instr) (s : State) : Effect :=
  match i with
  | .mov ra rb => .setReg ra (s.readReg rb)
  | .add ra rb => .setReg ra (s.readReg ra + s.readReg rb)
  | .sub ra rb => .setReg ra (s.readReg ra - s.readReg rb)
  | .and ra rb => .setReg ra (s.readReg ra &&& s.readReg rb)
  | .or ra rb => .setReg ra (s.readReg ra ||| s.readReg rb)
  | .sl ra => .setReg ra (s.readReg ra <<< 1)
  | .sr ra => .setReg ra (s.readReg ra >>> 1)
  | .sra ra => .setReg ra ((s.readReg ra &&& 0x8000) ||| (s.readReg ra >>> 1))
  | .ldl ra imm8 => .setReg ra (withLowByte (s.readReg ra) imm8)
  | .ldh ra imm8 => .setReg ra (withHighByte (s.readReg ra) imm8)
  | .cmp ra rb => .setFlag (equalFlag (s.readReg ra) (s.readReg rb))
  | .je addr8 => .jump s.flag addr8
  | .jmp addr8 => .jump true addr8
  | .ld ra addr8 => .setReg ra (s.memRead addr8)
  | .st ra addr8 => .setCell addr8 (s.readReg ra)
  | .hlt => .halt
  | .reserved => .raiseIllegalOpcode

theorem exec_eq_apply_effectOf (i : Instr) (s : State) : exec i s = .next ((effectOf i s).apply s) := by
  cases i <;> rfl

theorem eq_apply_effectOf {i : Instr} {s t : State} (h : exec i s = .next t) : t = (effectOf i s).apply s :=
  (Host.Outcome.next.inj ((exec_eq_apply_effectOf i s).symm.trans h)).symm

@[simp] theorem destReg_effectOf (i : Instr) (s : State) : (effectOf i s).destReg = i.destReg := by
  cases i <;> rfl

@[simp] theorem writesFlag_effectOf (i : Instr) (s : State) : (effectOf i s).writesFlag = i.isCmp := by
  cases i <;> rfl

@[simp] theorem executes_effectOf (i : Instr) (s : State) : (effectOf i s).executes = i.executes := by
  cases i <;> rfl

/-- An instruction has the same effect on two states that agree on the registers it reads, on the flag, and on the data cell it loads (R23, R29, R44). -/
theorem effectOf_congr {i : Instr} {s s' : State} (hreg : ∀ r ∈ i.srcRegs, s.readReg r = s'.readReg r)
    (hflag : s.flag = s'.flag) (hmem : ∀ ra a, i = .ld ra a → s.memRead a = s'.memRead a) :
    effectOf i s = effectOf i s' := by
  cases i with
  | mov | add | sub | and | or | sl | sr | sra | ldl | ldh | cmp | st =>
    simp only [Instr.srcRegs, List.forall_mem_cons] at hreg
    simp only [effectOf, hreg]
  | je => exact congrArg (Effect.jump · _) hflag
  | ld ra a => exact congrArg (Effect.setReg ra) (hmem ra a rfl)
  | jmp | hlt | reserved => rfl

/-! ## What an effect keeps -/

theorem Effect.apply_imem (e : Effect) (s : State) : (e.apply s).imem = s.imem := by
  cases e <;> rfl

theorem Effect.apply_dmem_wf (e : Effect) {s : State} (h : s.dmem.wf Config.dmemSize = true) :
    (e.apply s).dmem.wf Config.dmemSize = true := by
  cases e with
  | setCell a v => exact Memory.wf_write (Nat.le_refl 256) h a v
  | _ => exact h

theorem Effect.apply_flag {e : Effect} (h : e.writesFlag = false) (s : State) : (e.apply s).flag = s.flag := by
  cases e with
  | setFlag => cases h
  | _ => rfl

theorem Effect.apply_run {e : Effect} (h : e.executes = true) (s : State) : (e.apply s).run = s.run := by
  cases e with
  | halt | raiseIllegalOpcode => cases h
  | _ => rfl

theorem Effect.apply_trace {e : Effect} (h : e.executes = true) (s : State) :
    (e.apply s).trace = s.traceEvent :: s.trace := by
  cases e with
  | halt | raiseIllegalOpcode => cases h
  | _ => rfl

theorem Effect.readReg_apply {e : Effect} {r : RegIdx} (h : e.destReg ≠ some r) (s : State) :
    (e.apply s).readReg r = s.readReg r := by
  cases e with
  | setReg q v => exact (unchanged_writeReg s q v).regs r h
  | _ => rfl

theorem Effect.readReg_apply_destReg {e : Effect} {r : RegIdx} (h : e.destReg = some r) (s s' : State) :
    (e.apply s).readReg r = (e.apply s').readReg r := by
  cases e with
  | setReg q v =>
    obtain rfl : q = r := Option.some.inj h
    simp only [Effect.apply, State.readReg_writeReg_self]
  | _ => cases h

/-- What an effect does beside the registers has nothing to do with what a register held. -/
theorem Effect.apply_writeReg (e : Effect) (s : State) (r : RegIdx) (v : Word) :
    (e.apply (s.writeReg r v)).pc = (e.apply s).pc ∧ (e.apply (s.writeReg r v)).flag = (e.apply s).flag ∧
      (e.apply (s.writeReg r v)).dmem = (e.apply s).dmem ∧ (e.apply (s.writeReg r v)).run = (e.apply s).run := by
  cases e <;> exact ⟨rfl, rfl, rfl, rfl⟩

/-- An effect keeps two states alike in registers, flag and data memory. -/
theorem Effect.apply_data_congr (e : Effect) {s s' : State} (hx : s.x = s'.x) (hflag : s.flag = s'.flag)
    (hdmem : s.dmem = s'.dmem) :
    (e.apply s).x = (e.apply s').x ∧ (e.apply s).flag = (e.apply s').flag ∧ (e.apply s).dmem = (e.apply s').dmem := by
  cases e with
  | setReg r v => exact ⟨congrArg (·.set r.toNat v r.isLt) hx, hflag, hdmem⟩
  | setCell a v => exact ⟨hx, hflag, congrArg (·.write a v) hdmem⟩
  | setFlag => exact ⟨hx, rfl, hdmem⟩
  | jump | halt | raiseIllegalOpcode => exact ⟨hx, hflag, hdmem⟩

end Sys2Proof.Machine
end

section
/-!
What an instruction reads and writes (spec/10_state.md R23, R25, R31, R33).
-/

namespace Sys2Proof.Machine

theorem readReg_eq_of_x_eq {s s' : State} (h : s.x = s'.x) (r : RegIdx) : s.readReg r = s'.readReg r := by
  simp only [State.readReg, h]

theorem memRead_eq_of_dmem_eq {s s' : State} (h : s.dmem = s'.dmem) (a : Addr) : s.memRead a = s'.memRead a :=
  congrArg (·.read a) h

/-- Writing a register that the instruction does not read leaves the instruction's effect as it was. -/
theorem effectOf_writeReg {i : Instr} {r : RegIdx} (h : r ∉ i.srcRegs) (s : State) (v : Word) :
    effectOf i (s.writeReg r v) = effectOf i s :=
  effectOf_congr
    (fun q hq => by rw [State.readReg_writeReg, if_neg fun hqr : q = r => h (hqr ▸ hq)])
    rfl (fun _ _ _ => rfl)

/-- Settles O21: the effect names the register it writes, and depends on no register but the ones the instruction reads. -/
theorem registerReadsAndWrites : Obligations.RegisterReadsAndWrites := by
  refine ⟨fun i s t ht r hr => ?_, fun i s t r v hr ht => ?_⟩
  · rw [eq_apply_effectOf ht]
    exact Effect.readReg_apply (by simpa using hr) s
  · rw [eq_apply_effectOf ht]
    refine ⟨(effectOf i s).apply (s.writeReg r v), ?_, fun q hq => ?_, Effect.apply_writeReg _ s r v⟩
    · rw [exec_eq_apply_effectOf, effectOf_writeReg hr]
    · by_cases hdest : (effectOf i s).destReg = some q
      · exact Effect.readReg_apply_destReg hdest _ _
      · have hqr : q ≠ r := hq.resolve_right (by simpa using hdest)
        rw [Effect.readReg_apply hdest, Effect.readReg_apply hdest, State.readReg_writeReg, if_neg hqr]

/-- Settles O24: on two states that agree on registers, flag and data memory an instruction has one and the same effect, and the effect keeps them in
agreement. -/
theorem programStateIsNotData : Obligations.ProgramStateIsNotData := by
  intro i s s' t t' hx hflag hdmem ht ht'
  have heffect : effectOf i s = effectOf i s' :=
    effectOf_congr (fun r _ => readReg_eq_of_x_eq hx r) hflag (fun _ a _ => memRead_eq_of_dmem_eq hdmem a)
  rw [eq_apply_effectOf ht, eq_apply_effectOf ht', heffect]
  exact Effect.apply_data_congr _ hx hflag hdmem

end Sys2Proof.Machine
end

section
/-!
When a machine steps, and what run state the step leads to (spec/10_state.md R32; spec/40_execution_cycle.md R80, R86, R87).
-/

namespace Sys2Proof.Machine

theorem executes_decode {w : Word} (h : (decodeFields w).op.toNat < 15) : (decode w).executes = true := by
  unfold decode
  generalize (decodeFields w).op.toNat = n at h
  interval_cases n <;> rfl

theorem decode_eq_hlt {w : Word} (h : (decodeFields w).op.toNat = 15) : decode w = .hlt := by
  rw [decode, h]
  rfl

theorem decode_eq_reserved {w : Word} (h : 16 ≤ (decodeFields w).op.toNat) : decode w = .reserved := by
  obtain ⟨k, hk⟩ := Nat.exists_eq_add_of_le' h
  rw [decode, hk]
  rfl

/-- A step is the effect of the fetched instruction on the Running machine with its word in `ir`. -/
theorem step_eq_apply {s t : State} (h : step s = .next t) :
    s.run = .running ∧ t = (effectOf (decode (s.ifetch s.pc)) s.fetch).apply s.fetch :=
  (step_next h).imp_right eq_apply_effectOf

theorem step_halted {s : State} (h : s.run = .halted) : step s = .fault .runHalted := by
  simp only [step, State.endOfRun, h]

theorem step_faulted {s : State} {r : FaultRecord} (h : s.run = .faulted r) : step s = .fault (.runFaulted r) := by
  simp only [step, State.endOfRun, h]

/-- Settles O28: a Running machine does the fetched instruction, which completes; a step from any other machine contradicts `step_next`. -/
theorem stepExactlyWhileRunning : Obligations.StepExactlyWhileRunning := by
  refine ⟨fun s hs => ?_, fun s => step_halted, fun s r => step_faulted, fun s t is hs hrun => ?_⟩
  · exact ⟨_, (step_of_running hs).trans (exec_eq_apply_effectOf _ _)⟩
  · cases hrun with
    | nil => exact ⟨rfl, rfl⟩
    | cons first _ => exact absurd (step_next first).1 hs

/-- Settles O29: the opcode field is below 15, 15, or 16 and more, and the instruction it selects is an executed one, Hlt, or the reserved row. -/
theorem runStateTransitions : Obligations.RunStateTransitions := by
  intro s t ht
  obtain ⟨hrunning, rfl⟩ := step_eq_apply ht
  refine ⟨hrunning, ?_⟩
  rcases Nat.lt_trichotomy (decodeFields (s.ifetch s.pc)).op.toNat 15 with hlt | heq | hgt
  · rw [Effect.apply_run ((executes_effectOf _ _).trans (executes_decode hlt)), State.fetch_run, hrunning]
    exact ⟨iff_of_true rfl hlt, iff_of_false nofun hlt.ne, iff_of_false (fun ⟨_, h⟩ => nomatch h) (by omega)⟩
  · rw [decode_eq_hlt heq]
    exact ⟨iff_of_false nofun heq.not_lt, iff_of_true rfl heq, iff_of_false (fun ⟨_, h⟩ => nomatch h) (by omega)⟩
  · rw [decode_eq_reserved hgt]
    exact ⟨iff_of_false nofun (by omega), iff_of_false nofun hgt.ne', iff_of_true ⟨_, rfl⟩ hgt⟩

end Sys2Proof.Machine
end

section
/-!
The flag over an execution (spec/10_state.md R29).
-/

namespace Sys2Proof.Machine

theorem step_flag {s t : State} (h : step s = .next t) (hcmp : (decode (s.ifetch s.pc)).isCmp = false) :
    t.flag = s.flag := by
  rw [(step_eq_apply h).2, Effect.apply_flag (by simpa using hcmp), State.fetch_flag]

theorem step_cmp_flag {s t : State} {ra rb : RegIdx} (h : step s = .next t) (hcmp : decode (s.ifetch s.pc) = .cmp ra rb) :
    t.flag = equalFlag (s.readReg ra) (s.readReg rb) := by
  rw [(step_eq_apply h).2, hcmp]
  rfl

theorem Run.flag {s t : State} {is : List Instr} (h : Run s is t) (hcmp : ∀ i ∈ is, i.isCmp = false) :
    t.flag = s.flag := by
  induction h with
  | nil => rfl
  | cons first _ ih =>
    obtain ⟨hfirst, hrest⟩ := List.forall_mem_cons.1 hcmp
    rw [ih hrest, step_flag first hfirst]

theorem Run.uncons {s u : State} {i : Instr} {is : List Instr} (h : Run s (i :: is) u) :
    ∃ t, step s = .next t ∧ decode (s.ifetch s.pc) = i ∧ Run t is u := by
  cases h with
  | cons first rest => exact ⟨_, first, rfl, rest⟩

/-- Settles O31: only a Cmp writes the flag, so the rest of the execution keeps what the first Cmp left. -/
theorem flagPersistsUntilNextCmp : Obligations.FlagPersistsUntilNextCmp := by
  refine ⟨rfl, fun s t is hrun hcmp => hrun.flag hcmp, fun s t ra rb is hrun hcmp => ?_⟩
  obtain ⟨u, first, hfetched, rest⟩ := hrun.uncons
  rw [rest.flag hcmp, step_cmp_flag first hfetched, equalFlag, decide_eq_true_iff]

end Sys2Proof.Machine
end

section
/-!
The machine's invariant holds at reset and every step keeps it (spec/10_state.md R28, R32, R34; spec/40_execution_cycle.md R86 to R91).
-/

namespace Sys2Proof.Machine

/-- Settles O36: the reset state is Running with both memories empty and no trace, so the clauses on the ends of a run and on the trace ask nothing. -/
theorem resetMeetsInvariant : Obligations.ResetMeetsInvariant where
  imem_wf := State.reset_memories_wf.1
  dmem_wf := State.reset_memories_wf.2
  halted h := nomatch h
  faulted _ h := nomatch h
  traced _ h := nomatch h
  fresh _ := rfl

theorem beforeFirstStep_iff {s : State} : s.beforeFirstStep = true ↔ s.run = .running ∧ s.trace = [] := by
  simp [State.beforeFirstStep]

theorem ifetch_eq_of_imem_eq {s t : State} (h : t.imem = s.imem) (a : Addr) : t.ifetch a = s.ifetch a :=
  congrArg (·.read a) h

/-- An executed instruction keeps the invariant: the machine is still Running, and the one new trace event holds the word just fetched. -/
theorem Inv.apply_executes {s : State} {e : Effect} (hinv : Inv s) (hrun : s.run = .running) (he : e.executes = true)
    (hword : (decode (s.ifetch s.pc)).executes = true) : Inv (e.apply s.fetch) := by
  have hrun' : (e.apply s.fetch).run = .running := (Effect.apply_run he _).trans hrun
  have htrace := Effect.apply_trace he s.fetch
  have hifetch := ifetch_eq_of_imem_eq (e.apply_imem s.fetch)
  refine ⟨?_, e.apply_dmem_wf hinv.dmem_wf, fun h => ?_, fun r h => ?_, ?_, fun h => ?_⟩
  · rw [Effect.apply_imem]
    exact hinv.imem_wf
  · rw [hrun'] at h
    cases h
  · rw [hrun'] at h
    cases h
  · simp only [htrace, hifetch, State.ifetch_fetch]
    exact List.forall_mem_cons.2 ⟨⟨rfl, hword⟩, hinv.traced⟩
  · rw [beforeFirstStep_iff, htrace] at h
    cases h.2

/-- A Hlt word ends the run at its own address with itself in `ir` (R86). -/
theorem Inv.fetch_halt {s : State} (hinv : Inv s) (hword : decode (s.ifetch s.pc) = .hlt) : Inv s.fetch.halt where
  imem_wf := hinv.imem_wf
  dmem_wf := hinv.dmem_wf
  halted _ := ⟨rfl, hword⟩
  faulted _ h := nomatch h
  traced := hinv.traced
  fresh h := nomatch (beforeFirstStep_iff.1 h).1

/-- A reserved word ends the run at its own address with itself in `ir` and both in the record (R161). -/
theorem Inv.fetch_raiseIllegalOpcode {s : State} (hinv : Inv s) (hword : decode (s.ifetch s.pc) = .reserved) :
    Inv s.fetch.raiseIllegalOpcode where
  imem_wf := hinv.imem_wf
  dmem_wf := hinv.dmem_wf
  halted h := nomatch h
  faulted _ h := ⟨(RunState.faulted.inj h).symm, rfl, hword⟩
  traced := hinv.traced
  fresh h := nomatch (beforeFirstStep_iff.1 h).1

/-- Settles O37: by the three ways R80 treats the fetched word. -/
theorem stepKeepsInvariant : Obligations.StepKeepsInvariant := by
  intro s t hinv ht
  obtain ⟨hrun, rfl⟩ := step_eq_apply ht
  rcases executes_or_hlt_or_reserved (decode (s.ifetch s.pc)) with hword | hword | hword
  · exact hinv.apply_executes hrun ((executes_effectOf _ _).trans hword) hword
  · rw [hword]
    exact hinv.fetch_halt hword
  · rw [hword]
    exact hinv.fetch_raiseIllegalOpcode hword

end Sys2Proof.Machine
end

section
/-!
What an instruction and a step read and write of the two memories (spec/20_memory.md R44, R46, R48).
-/

namespace Sys2Proof.Machine

/-- The data cell an effect writes. -/
def Effect.storeAddr : Effect → Option Addr
  | .setCell a _ => some a
  | .setReg _ _ | .setFlag _ | .jump _ _ | .halt | .raiseIllegalOpcode => none

@[simp] theorem storeAddr_effectOf (i : Instr) (s : State) : (effectOf i s).storeAddr = i.storeAddr := by
  cases i <;> rfl

theorem Effect.apply_dmem {e : Effect} (h : e.storeAddr = none) (s : State) : (e.apply s).dmem = s.dmem := by
  cases e with
  | setCell => cases h
  | _ => rfl

theorem Effect.memRead_apply {e : Effect} {a : Addr} (h : e.storeAddr ≠ some a) (s : State) :
    (e.apply s).memRead a = s.memRead a := by
  cases e with
  | setCell b v => exact (unchanged_memWrite s b v).data a h
  | _ => rfl

/-- What an effect does beside data memory has nothing to do with what data memory held. -/
theorem Effect.apply_with_dmem (e : Effect) (s : State) (m : Memory) :
    (e.apply { s with dmem := m }).x = (e.apply s).x ∧ (e.apply { s with dmem := m }).pc = (e.apply s).pc ∧
      (e.apply { s with dmem := m }).flag = (e.apply s).flag ∧ (e.apply { s with dmem := m }).run = (e.apply s).run := by
  cases e <;> exact ⟨rfl, rfl, rfl, rfl⟩

/-- No effect reads instruction memory or writes it (R48). -/
theorem Effect.apply_with_imem (e : Effect) (s : State) (m : Memory) :
    e.apply { s with imem := m } = { e.apply s with imem := m } := by
  cases e <;> rfl

/-- Of data memory an instruction reads the cell it loads and no other. -/
theorem effectOf_with_dmem {i : Instr} {s : State} {m : Memory} (h : ∀ ra a, i = .ld ra a → m.read a = s.dmem.read a) :
    effectOf i { s with dmem := m } = effectOf i s :=
  effectOf_congr (fun _ _ => rfl) rfl h

theorem effectOf_with_imem (i : Instr) (s : State) (m : Memory) : effectOf i { s with imem := m } = effectOf i s :=
  effectOf_congr (fun _ _ => rfl) rfl (fun _ _ _ => rfl)

/-- Of instruction memory a fetch reads the cell at `pc` and no other (R81). -/
theorem State.fetch_with_imem {s : State} {m : Memory} (h : m.read s.pc = s.imem.read s.pc) :
    State.fetch { s with imem := m } = { s.fetch with imem := m } := by
  simp only [State.fetch, State.ifetch, h]

/-- A step takes the fetched word to its instruction's effect, whatever the other cells of instruction memory hold. -/
theorem step_with_imem {s t : State} {m : Memory} (hword : m.read s.pc = s.imem.read s.pc) (h : step s = .next t) :
    step { s with imem := m } = .next { t with imem := m } := by
  obtain ⟨hrun, rfl⟩ := step_eq_apply h
  calc step { s with imem := m }
      = exec (decode (m.read s.pc)) (State.fetch { s with imem := m }) := step_of_running hrun
    _ = exec (decode (s.ifetch s.pc)) { s.fetch with imem := m } := by rw [State.fetch_with_imem hword, hword, State.ifetch]
    _ = .next { (effectOf (decode (s.ifetch s.pc)) s.fetch).apply s.fetch with imem := m } := by
      rw [exec_eq_apply_effectOf, effectOf_with_imem, Effect.apply_with_imem]

/-- Settles O22: the effect names the data cell it writes, depends on no data cell but an Ld's, and the fetch depends on the cell at `pc` only. -/
theorem accessesTouchOneCell : Obligations.AccessesTouchOneCell := by
  refine ⟨fun i s t ht => ?_, fun i s t m hm ht => ?_, fun s t m hword => step_with_imem hword⟩
  · rw [eq_apply_effectOf ht]
    exact ⟨fun h => Effect.apply_dmem (by simpa using h) s, fun a h => Effect.memRead_apply (by simpa using h) s⟩
  · rw [eq_apply_effectOf ht]
    refine ⟨(effectOf i s).apply { s with dmem := m }, ?_, Effect.apply_with_dmem _ s m⟩
    rw [exec_eq_apply_effectOf, effectOf_with_dmem hm]

end Sys2Proof.Machine
end

section
/-!
The memories over an execution, and the loads of the setup pass before it (spec/20_memory.md R49, R50; spec/40_execution_cycle.md R88).
-/

namespace Sys2Proof.Machine

/-- What every step that does one of the allowed instructions keeps, an execution of such instructions keeps. -/
theorem Run.invariant {P : State → Prop} {allowed : Instr → Prop} {s t : State} {is : List Instr} (h : Run s is t)
    (hstep : ∀ s t, step s = .next t → allowed (decode (s.ifetch s.pc)) → P s → P t)
    (hallowed : ∀ i ∈ is, allowed i) (hs : P s) : P t := by
  induction h with
  | nil => exact hs
  | cons first _ ih =>
    obtain ⟨hfirst, hrest⟩ := List.forall_mem_cons.1 hallowed
    exact ih hrest (hstep _ _ first hfirst hs)

/-! ## Loads by the host -/

theorem load_of_started {s : State} (h : s.beforeFirstStep = false) (words : List Word) (base : Nat) :
    load words base s = .refused .runStarted := by
  simp [load, h]

/-- A load that is not refused comes before the first step, stays in bounds, and places its words (R88, D7). -/
theorem load_loaded {words : List Word} {base : Nat} {s t : State} (h : load words base s = .loaded t) :
    s.beforeFirstStep = true ∧ base < Config.imemSize ∧ base + words.length ≤ Config.imemSize ∧
      t = placeWords words base s := by
  unfold load at h
  split at h
  · next hfresh =>
    split at h
    · next hbounds => exact ⟨hfresh, hbounds.1, hbounds.2, (LoadResult.loaded.inj h).symm⟩
    · cases h
  · cases h

@[simp] theorem placeWords_dmem (words : List Word) (base : Nat) (s : State) : (placeWords words base s).dmem = s.dmem := by
  induction words generalizing base s with
  | nil => rfl
  | cons w words ih => rw [placeWords, ih, State.placeWord_dmem]

/-- After a load on the reset machine every data cell still has its reset value (R34). -/
theorem memRead_load_reset {words : List Word} {base : Nat} {s : State} (h : load words base State.reset = .loaded s)
    (a : Addr) : s.memRead a = 0 := by
  obtain ⟨-, -, -, rfl⟩ := load_loaded h
  rw [memRead_eq_of_dmem_eq (placeWords_dmem words base State.reset)]
  rfl

/-! ## Instruction memory -/

theorem step_imem {s t : State} (h : step s = .next t) : t.imem = s.imem := by
  rw [(step_eq_apply h).2, Effect.apply_imem, State.fetch_imem]

theorem Run.imem {s t : State} {is : List Instr} (h : Run s is t) : t.imem = s.imem :=
  h.invariant (P := fun u => u.imem = s.imem) (allowed := fun _ => True)
    (fun _ _ hstep _ hs => (step_imem hstep).trans hs) (fun _ _ => trivial) rfl

/-- Every effect leaves a mark of the step: a trace event, or the end of the run. -/
theorem Effect.beforeFirstStep_apply (e : Effect) (s : State) : (e.apply s).beforeFirstStep = false := by
  rw [← Bool.not_eq_true, beforeFirstStep_iff]
  rintro ⟨hrun, htrace⟩
  cases e with
  | halt | raiseIllegalOpcode => cases hrun
  | _ => cases htrace

theorem step_beforeFirstStep {s t : State} (h : step s = .next t) : t.beforeFirstStep = false := by
  rw [(step_eq_apply h).2, Effect.beforeFirstStep_apply]

theorem Run.beforeFirstStep {s t : State} {is : List Instr} (h : Run s is t) (hs : s.beforeFirstStep = false) :
    t.beforeFirstStep = false :=
  h.invariant (P := fun u => u.beforeFirstStep = false) (allowed := fun _ => True)
    (fun _ _ hstep _ _ => step_beforeFirstStep hstep) (fun _ _ => trivial) hs

/-- Settles O30: no step writes instruction memory, and once a step is taken the machine is never again in the state in which a load is accepted. -/
theorem instructionMemoryIsConstant : Obligations.InstructionMemoryIsConstant :=
  ⟨fun _ _ _ hrun => hrun.imem, fun _ _ _ _ first hrun words base =>
    load_of_started (hrun.beforeFirstStep (step_beforeFirstStep first)) words base⟩

/-! ## Data memory -/

theorem step_memRead {s t : State} {a : Addr} (h : step s = .next t)
    (hstore : (decode (s.ifetch s.pc)).storeAddr ≠ some a) : t.memRead a = s.memRead a := by
  rw [(step_eq_apply h).2, Effect.memRead_apply (by simpa using hstore), State.memRead_fetch]

theorem step_st_memRead {s t : State} {ra : RegIdx} {a : Addr} (h : step s = .next t)
    (hst : decode (s.ifetch s.pc) = .st ra a) : t.memRead a = s.readReg ra := by
  rw [(step_eq_apply h).2, hst]
  exact State.memRead_memWrite_self _ _ _

theorem step_ld_readReg {s : State} {ra : RegIdx} {a : Addr} (hrun : s.run = .running)
    (hld : decode (s.ifetch s.pc) = .ld ra a) : ∃ t, step s = .next t ∧ t.readReg ra = s.memRead a := by
  refine ⟨_, ?_, State.readReg_writeReg_self s.fetch.beginExecute ra (s.memRead a)⟩
  rw [step_of_running hrun, hld]
  rfl

theorem Run.memRead {s t : State} {is : List Instr} {a : Addr} (h : Run s is t)
    (hstore : ∀ i ∈ is, i.storeAddr ≠ some a) : t.memRead a = s.memRead a :=
  h.invariant (P := fun u => u.memRead a = s.memRead a) (allowed := fun i => i.storeAddr ≠ some a)
    (fun _ _ hstep hi hs => (step_memRead hstep hi).trans hs) hstore rfl

/-- After an execution with no store to a cell, an Ld of the cell gives what it held before the execution. -/
theorem Run.step_ld_readReg {s t : State} {is : List Instr} {rb : RegIdx} {a : Addr} (h : Run s is t)
    (hstore : ∀ i ∈ is, i.storeAddr ≠ some a) (hrun : t.run = .running) (hld : decode (t.ifetch t.pc) = .ld rb a) :
    ∃ u, step t = .next u ∧ u.readReg rb = s.memRead a :=
  h.memRead hstore ▸ Machine.step_ld_readReg hrun hld

/-- Settles O32: the cell holds the stored value, or 0 on the loaded machine, when the execution without a store to it begins, and so at its end. -/
theorem loadReturnsLatestStore : Obligations.LoadReturnsLatestStore := by
  refine ⟨fun s t ra rb a is h hstore hrun hld => ?_, fun words base s t rb a is hload h hstore hrun hld => ?_⟩
  · obtain ⟨u, first, hst, rest⟩ := h.uncons
    exact step_st_memRead first hst ▸ rest.step_ld_readReg hstore hrun hld
  · exact memRead_load_reset hload a ▸ h.step_ld_readReg hstore hrun hld

end Sys2Proof.Machine
end

section
/-!
The canonical word of a format (spec/30_encoding.md R63, R67): what an encoder makes of the fields, what the decoder reads back, and what the ignored bits
have to do with it (R68). Encoding is `Fields.word`, decoding is `decodeFields`, and an instruction depends on nothing that the two together lose.
-/

namespace Sys2Proof

/-- The word of a format with the given fields and every ignored bit 0 (R63). -/
def Fields.word (F : Fields) : Format → Word
  | .rr => F.op ++ F.ra ++ F.rb ++ 0#5
  | .r => F.op ++ F.ra ++ 0#8
  | .ri => F.op ++ F.ra ++ F.imm8
  | .a => F.op ++ 0#3 ++ F.imm8
  | .z => F.op ++ 0#11

/-- The fields the decoder cuts out of `Fields.word`: the ones the format uses, with what the overlap of `rb` and `imm8` (R64) and the zeros make of the
others. -/
def Fields.readBack (F : Fields) : Format → Fields
  | .rr => { F with imm8 := F.rb ++ 0#5 }
  | .r => { F with rb := 0, imm8 := 0 }
  | .ri => { F with rb := F.imm8.extractLsb' 5 3 }
  | .a => { F with ra := 0, rb := F.imm8.extractLsb' 5 3 }
  | .z => { F with ra := 0, rb := 0, imm8 := 0 }

/-- The fields an encoder's arguments give: each reduced to the width of its field (R69 to R73). -/
def Fields.ofNats (op a b v : Nat) : Fields where
  op := BitVec.ofNat 5 op
  ra := BitVec.ofNat 3 a
  rb := BitVec.ofNat 3 b
  imm8 := BitVec.ofNat 8 v

/-! ## Words and fields -/

theorem decodeFields_word (F : Fields) (f : Format) : decodeFields (F.word f) = F.readBack f := by
  cases f with
  | rr => exact decodeFields_append F.op F.ra F.rb 0
  | r => exact decodeFields_append_byte F.op F.ra 0
  | ri => exact decodeFields_append_byte F.op F.ra F.imm8
  | a => exact decodeFields_append_byte F.op 0 F.imm8
  | z =>
    have hzero : F.op ++ 0#11 = F.op ++ 0#3 ++ 0#8 := by rw [BitVec.append_assoc]; rfl
    exact (congrArg decodeFields hzero).trans (decodeFields_append_byte F.op 0 0)

@[simp] theorem Fields.readBack_op (F : Fields) (f : Format) : (F.readBack f).op = F.op := by
  cases f <;> rfl

theorem Fields.word_readBack (F : Fields) (f : Format) : (F.readBack f).word f = F.word f := by
  cases f <;> rfl

/-- Clearing the bits that a format ignores leaves the word of the same fields. -/
theorem and_usedMask (w : Word) (f : Format) : w &&& usedMask f = (decodeFields w).word f := by
  refine BitVec.eq_of_getLsbD_eq fun i hi => ?_
  cases f
  all_goals
    simp only [Fields.word, decodeFields, usedMask, BitVec.getLsbD_and, BitVec.getLsbD_append, BitVec.getLsbD_extractLsb']
    interval_cases i <;> simp

theorem Fields.word_and_usedMask (F : Fields) (f : Format) : F.word f &&& usedMask f = F.word f := by
  rw [and_usedMask, decodeFields_word, word_readBack]

/-- Bit 15 is the top bit of the opcode field, so it says whether the opcode value is one of 16 to 31. -/
theorem getLsbD_fifteen (w : Word) : w.getLsbD 15 = decide (16 ≤ (decodeFields w).op.toNat) := by
  have htop : w.getLsbD 15 = (decodeFields w).op.msb := by simp [decodeFields, BitVec.msb_eq_getLsbD_last]
  rw [htop, BitVec.msb_eq_decide]

/-! ## Opcodes and formats -/

theorem lt_of_formatOf {n : Nat} {f : Format} (h : formatOf n = some f) : n < 16 := by
  by_contra hn
  obtain ⟨k, rfl⟩ := Nat.exists_eq_add_of_le' (Nat.le_of_not_lt hn)
  cases h

theorem exists_formatOf {n : Nat} (h : n < 16) : ∃ f, formatOf n = some f := by
  interval_cases n <;> exact ⟨_, rfl⟩

theorem opcode_instrOf {n : Nat} (h : n < 16) (F : Fields) : (instrOf n F).opcode = some n := by
  interval_cases n <;> rfl

theorem wellFormed_decode_iff {w : Word} : (decode w).wellFormed = true ↔ (decodeFields w).op.toNat < 16 := by
  refine ⟨fun h => ?_, fun h => ?_⟩
  · by_contra hn
    rw [Machine.decode_eq_reserved (Nat.le_of_not_lt hn)] at h
    cases h
  · rw [Instr.wellFormed, decode, opcode_instrOf h, Option.isSome_some]

/-- The fields a format ignores do not matter to an instruction of that format (R67, R68). -/
theorem instrOf_readBack {n : Nat} {f : Format} (h : formatOf n = some f) (F : Fields) :
    instrOf n (F.readBack f) = instrOf n F := by
  have hn := lt_of_formatOf h
  interval_cases n <;> cases h <;> rfl

/-- A defined instruction is the reading of some fields under a defined opcode. -/
theorem exists_instrOf {i : Instr} (h : i.wellFormed = true) :
    ∃ (F : Fields) (f : Format), formatOf F.op.toNat = some f ∧ instrOf F.op.toNat F = i := by
  cases i with
  | mov ra rb => exact ⟨⟨0, ra, rb, 0⟩, .rr, rfl, rfl⟩
  | add ra rb => exact ⟨⟨1, ra, rb, 0⟩, .rr, rfl, rfl⟩
  | sub ra rb => exact ⟨⟨2, ra, rb, 0⟩, .rr, rfl, rfl⟩
  | and ra rb => exact ⟨⟨3, ra, rb, 0⟩, .rr, rfl, rfl⟩
  | or ra rb => exact ⟨⟨4, ra, rb, 0⟩, .rr, rfl, rfl⟩
  | sl ra => exact ⟨⟨5, ra, 0, 0⟩, .r, rfl, rfl⟩
  | sr ra => exact ⟨⟨6, ra, 0, 0⟩, .r, rfl, rfl⟩
  | sra ra => exact ⟨⟨7, ra, 0, 0⟩, .r, rfl, rfl⟩
  | ldl ra imm8 => exact ⟨⟨8, ra, 0, imm8⟩, .ri, rfl, rfl⟩
  | ldh ra imm8 => exact ⟨⟨9, ra, 0, imm8⟩, .ri, rfl, rfl⟩
  | cmp ra rb => exact ⟨⟨10, ra, rb, 0⟩, .rr, rfl, rfl⟩
  | je addr8 => exact ⟨⟨11, 0, 0, addr8⟩, .a, rfl, rfl⟩
  | jmp addr8 => exact ⟨⟨12, 0, 0, addr8⟩, .a, rfl, rfl⟩
  | ld ra addr8 => exact ⟨⟨13, ra, 0, addr8⟩, .ri, rfl, rfl⟩
  | st ra addr8 => exact ⟨⟨14, ra, 0, addr8⟩, .ri, rfl, rfl⟩
  | hlt => exact ⟨⟨15, 0, 0, 0⟩, .z, rfl, rfl⟩
  | reserved => cases h

/-! ## The encoders -/

theorem encodeRR_eq_some_iff {op a b : Nat} {w : Word} :
    encodeRR op a b = some w ↔ formatOf op = some .rr ∧ (Fields.ofNats op a b 0).word .rr = w := by
  rw [encodeRR, Option.ite_none_right_eq_some, Option.some_inj, word_rr]
  rfl

theorem encodeR_eq_some_iff {op a : Nat} {w : Word} :
    encodeR op a = some w ↔ formatOf op = some .r ∧ (Fields.ofNats op a 0 0).word .r = w := by
  rw [encodeR, Option.ite_none_right_eq_some, Option.some_inj, word_r]
  rfl

theorem encodeRI_eq_some_iff {op a v : Nat} {w : Word} :
    encodeRI op a v = some w ↔ formatOf op = some .ri ∧ (Fields.ofNats op a 0 v).word .ri = w := by
  rw [encodeRI, Option.ite_none_right_eq_some, Option.some_inj, word_ri]
  rfl

theorem encodeA_eq_some_iff {op v : Nat} {w : Word} :
    encodeA op v = some w ↔ formatOf op = some .a ∧ (Fields.ofNats op 0 0 v).word .a = w := by
  rw [encodeA, Option.ite_none_right_eq_some, Option.some_inj, word_a]
  rfl

theorem encodeZ_eq_some_iff {op : Nat} {w : Word} :
    encodeZ op = some w ↔ formatOf op = some .z ∧ (Fields.ofNats op 0 0 0).word .z = w := by
  rw [encodeZ, Option.ite_none_right_eq_some, Option.some_inj, word_z]
  rfl

/-- What a format's encoder makes of fields. -/
def Fields.encode (F : Fields) : Format → Option Word
  | .rr => encodeRR F.op.toNat F.ra.toNat F.rb.toNat
  | .r => encodeR F.op.toNat F.ra.toNat
  | .ri => encodeRI F.op.toNat F.ra.toNat F.imm8.toNat
  | .a => encodeA F.op.toNat F.imm8.toNat
  | .z => encodeZ F.op.toNat

theorem Fields.encode_eq_word {F : Fields} {f : Format} (h : formatOf F.op.toNat = some f) :
    F.encode f = some (F.word f) := by
  cases f with
  | rr => exact encodeRR_eq_some_iff.2 ⟨h, by simp [ofNats, word]⟩
  | r => exact encodeR_eq_some_iff.2 ⟨h, by simp [ofNats, word]⟩
  | ri => exact encodeRI_eq_some_iff.2 ⟨h, by simp [ofNats, word]⟩
  | a => exact encodeA_eq_some_iff.2 ⟨h, by simp [ofNats, word]⟩
  | z => exact encodeZ_eq_some_iff.2 ⟨h, by simp [ofNats, word]⟩

/-- `encode` gives an instruction to the encoder of its opcode's format. -/
theorem encode_instrOf_eq_encode {F : Fields} {f : Format} (h : formatOf F.op.toNat = some f) :
    encode (instrOf F.op.toNat F) = F.encode f := by
  have hn := lt_of_formatOf h
  unfold Fields.encode
  generalize F.op.toNat = n at h hn ⊢
  interval_cases n <;> cases h <;> rfl

theorem encode_instrOf {F : Fields} {f : Format} (h : formatOf F.op.toNat = some f) :
    encode (instrOf F.op.toNat F) = some (F.word f) :=
  (encode_instrOf_eq_encode h).trans (Fields.encode_eq_word h)

theorem decode_word {F : Fields} {f : Format} (h : formatOf F.op.toNat = some f) :
    decode (F.word f) = instrOf F.op.toNat F := by
  rw [decode, decodeFields_word, Fields.readBack_op, instrOf_readBack h]

/-- Settles O39: the instruction is the reading of some fields, the encoder gives the word of those fields, and decoding gives them back but for those its
format ignores. -/
theorem decodeOfEncode : Obligations.DecodeOfEncode := by
  intro i hi
  obtain ⟨F, f, hf, rfl⟩ := exists_instrOf hi
  exact ⟨F.word f, encode_instrOf hf, decode_word hf⟩

/-- Settles O42: the word with the ignored bits cleared is the word of the same fields. -/
theorem dontCareBitsIgnored : Obligations.DontCareBitsIgnored := by
  intro w hw
  have hop := wellFormed_decode_iff.1 hw
  obtain ⟨f, hf⟩ := exists_formatOf hop
  refine ⟨_, f, opcode_instrOf hop _, hf, ?_⟩
  rw [and_usedMask]
  exact ⟨encode_instrOf hf, decode_word hf⟩

/-! ## The encoders' arguments -/

theorem Fields.ofNats_op_toNat {op : Nat} {f : Format} (h : formatOf op = some f) (a b v : Nat) :
    (ofNats op a b v).op.toNat = op :=
  (BitVec.toNat_ofNat op 5).trans (Nat.mod_eq_of_lt ((lt_of_formatOf h).trans (by decide)))

/-- The opcode field of a word made of an encoder's arguments is the opcode. -/
theorem op_decodeFields_word_ofNats {op : Nat} {f : Format} (h : formatOf op = some f) (a b v : Nat) (g : Format) :
    (decodeFields ((Fields.ofNats op a b v).word g)).op.toNat = op := by
  rw [decodeFields_word, Fields.readBack_op, Fields.ofNats_op_toNat h]

/-- Settles O40: the encoders reduce their arguments to the width of the fields, and each format's decoder gives the fields it uses back. -/
theorem encoderTruncatesOperands : Obligations.EncoderTruncatesOperands := by
  refine ⟨fun op a b h => ⟨_, encodeRR_eq_some_iff.2 ⟨h, rfl⟩, op_decodeFields_word_ofNats h .., ?_⟩,
    fun op a h => ⟨_, encodeR_eq_some_iff.2 ⟨h, rfl⟩, op_decodeFields_word_ofNats h .., ?_⟩,
    fun op a v h => ⟨_, encodeRI_eq_some_iff.2 ⟨h, rfl⟩, op_decodeFields_word_ofNats h .., ?_⟩,
    fun op v h => ⟨_, encodeA_eq_some_iff.2 ⟨h, rfl⟩, op_decodeFields_word_ofNats h .., ?_⟩⟩
  all_goals rw [decodeFields_word]
  · exact ⟨BitVec.toNat_ofNat a 3, BitVec.toNat_ofNat b 3⟩
  · exact BitVec.toNat_ofNat a 3
  · exact ⟨BitVec.toNat_ofNat a 3, BitVec.toNat_ofNat v 8⟩
  · exact BitVec.toNat_ofNat v 8

/-- A word made of an encoder's arguments for a defined opcode has bit 15 and the ignored bits clear (R79). -/
theorem word_ofNats_clear {op : Nat} {f : Format} (h : formatOf op = some f) (a b v : Nat) :
    ((Fields.ofNats op a b v).word f).getLsbD 15 = false ∧
      (Fields.ofNats op a b v).word f &&& usedMask f = (Fields.ofNats op a b v).word f := by
  refine ⟨?_, Fields.word_and_usedMask _ f⟩
  rw [getLsbD_fifteen, op_decodeFields_word_ofNats h, decide_eq_false_iff_not, not_le]
  exact lt_of_formatOf h

/-- An encoder of format `f` has a word exactly for the opcodes of `f`, which are below 16. -/
theorem isSome_iff_lt_and_formatOf {r : Option Word} {op : Nat} {f : Format} {v : Word}
    (h : ∀ w, r = some w ↔ formatOf op = some f ∧ v = w) : r.isSome = true ↔ op < 16 ∧ formatOf op = some f := by
  simp only [Option.isSome_iff_exists, h, exists_and_left, exists_eq', and_true]
  exact ⟨fun hf => ⟨lt_of_formatOf hf, hf⟩, And.right⟩

/-- Settles O41: each encoder answers for the opcodes of its format only, with the word of its arguments. -/
theorem encoderDomain : Obligations.EncoderDomain := by
  refine ⟨fun _ _ _ => isSome_iff_lt_and_formatOf fun _ => encodeRR_eq_some_iff,
    fun _ _ => isSome_iff_lt_and_formatOf fun _ => encodeR_eq_some_iff,
    fun _ _ _ => isSome_iff_lt_and_formatOf fun _ => encodeRI_eq_some_iff,
    fun _ _ => isSome_iff_lt_and_formatOf fun _ => encodeA_eq_some_iff,
    fun _ => isSome_iff_lt_and_formatOf fun _ => encodeZ_eq_some_iff, fun op a b w f hf hw => ?_⟩
  rw [encodeRR_eq_some_iff, encodeR_eq_some_iff, encodeRI_eq_some_iff, encodeA_eq_some_iff, encodeZ_eq_some_iff, hf] at hw
  rcases hw with ⟨hfmt, rfl⟩ | ⟨hfmt, rfl⟩ | ⟨hfmt, rfl⟩ | ⟨hfmt, rfl⟩ | ⟨hfmt, rfl⟩
  all_goals
    cases hfmt
    exact word_ofNats_clear hf ..

end Sys2Proof
end

section
/-!
The opcode map against the decoder (spec/30_encoding.md R67, R75, R76): both look at the opcode field only.
-/

namespace Sys2Proof

/-- A row's mask lies in the opcode field, so a row covers a word when it covers the opcode field alone. -/
theorem covers_eq_covers_op {row : OpcodeRow} (h : row ∈ opcodeTable) (w : Word) :
    row.covers w = row.covers ((decodeFields w).op ++ 0#11) := by
  have hmask : ∀ row ∈ opcodeTable, usedMask .z &&& row.mask = row.mask := by decide
  have hop : (decodeFields w).op ++ 0#11 = w &&& usedMask .z := (and_usedMask w .z).symm
  rw [hop, OpcodeRow.covers, OpcodeRow.covers, BitVec.and_assoc, hmask row h]

theorem mnemonic_instrOf (n : Nat) (F F' : Fields) : (instrOf n F).mnemonic = (instrOf n F').mnemonic := by
  rcases Nat.lt_or_ge n 16 with hn | hn
  · interval_cases n <;> rfl
  · obtain ⟨k, rfl⟩ := Nat.exists_eq_add_of_le' hn
    rfl

/-- The row that covers an opcode field is the row of the instructions of that opcode, for the 32 opcode values and the 17 rows. -/
theorem covers_op_iff_mnemonic : ∀ op : BitVec 5, ∀ row ∈ opcodeTable,
    row.covers (op ++ 0#11) = true ↔ (instrOf op.toNat ⟨op, 0, 0, 0⟩).mnemonic = row.mnemonic := by
  decide

theorem covers_iff_mnemonic {row : OpcodeRow} (h : row ∈ opcodeTable) (w : Word) :
    row.covers w = true ↔ (decode w).mnemonic = row.mnemonic := by
  rw [covers_eq_covers_op h, covers_op_iff_mnemonic _ row h, decode, mnemonic_instrOf]

theorem exists_row_covers_op : ∀ op : BitVec 5, ∃ row ∈ opcodeTable, row.covers (op ++ 0#11) = true := by
  decide

theorem exists_row_covers (w : Word) : ∃ row ∈ opcodeTable, row.covers w = true := by
  obtain ⟨row, hrow, hcovers⟩ := exists_row_covers_op (decodeFields w).op
  exact ⟨row, hrow, (covers_eq_covers_op hrow w).trans hcovers⟩

theorem row_eq_of_mnemonic_eq {row row' : OpcodeRow} (h : row ∈ opcodeTable) (h' : row' ∈ opcodeTable)
    (heq : row.mnemonic = row'.mnemonic) : row = row' :=
  List.inj_on_of_nodup_map (f := OpcodeRow.mnemonic) (by decide) h h' heq

theorem decode_eq_reserved_iff (w : Word) : decode w = .reserved ↔ w.getLsbD 15 = true := by
  rw [getLsbD_fifteen, decide_eq_true_iff]
  refine ⟨fun h => Nat.le_of_not_lt fun hop => ?_, Machine.decode_eq_reserved⟩
  rw [← wellFormed_decode_iff, h] at hop
  cases hop

/-- Settles O43: every opcode field is covered by a row, the row has the mnemonic of the opcode's instruction, and no two rows share a mnemonic. -/
theorem opcodeMapPartitionsWords : Obligations.OpcodeMapPartitionsWords := by
  intro w
  refine ⟨exists_row_covers w, fun row hrow => covers_iff_mnemonic hrow w, fun row hrow row' hrow' hw hw' => ?_,
    decode_eq_reserved_iff w⟩
  rw [covers_iff_mnemonic hrow] at hw
  rw [covers_iff_mnemonic hrow'] at hw'
  exact row_eq_of_mnemonic_eq hrow hrow' (hw.symm.trans hw')

end Sys2Proof
end

section
/-!
What an instruction leaves alone and where it goes on (spec/40_execution_cycle.md R83, R84), and the trace event it leaves (R91).
-/

namespace Sys2Proof.Machine

/-! ## The frame of an effect -/

theorem Effect.unchanged_apply (e : Effect) (s : State) : Unchanged e.destReg e.storeAddr s (e.apply s) := by
  cases e with
  | setReg r v => exact unchanged_writeReg s r v
  | setCell a v => exact unchanged_memWrite s a v
  | setFlag b => exact unchanged_setFlag s b
  | jump taken target => exact unchanged_jumpIf s taken target
  | halt => exact unchanged_halt s
  | raiseIllegalOpcode => exact unchanged_raiseIllegalOpcode s

theorem decode_mnemonic_eq_of_op_eq {v w : Word} (h : (decodeFields v).op = (decodeFields w).op) :
    (decode v).mnemonic = (decode w).mnemonic := by
  rw [decode, decode, h]
  exact mnemonic_instrOf _ _ _

/-! ## The next address -/

/-- R134's table is what the effects do to `pc`: a taken jump writes over the increment, Hlt and the reserved row do not increment. -/
theorem pc_apply_effectOf (i : Instr) (s : State) : ((effectOf i s).apply s).pc.toNat = nextAddress i s := by
  cases i with
  | je addr8 =>
    simp only [effectOf, Effect.apply, State.jumpIf_pc, State.beginExecute_pc, nextAddress]
    split
    · rfl
    · exact toNat_increment s.pc
  | jmp | hlt | reserved => rfl
  | _ => exact toNat_increment s.pc

theorem nextAddress_fetch (i : Instr) (s : State) : nextAddress i s.fetch = nextAddress i s := by
  cases i <;> rfl

theorem nextAddress_of_not_jump {i : Instr} (hexec : i.executes = true) (hje : ∀ a, i ≠ .je a) (hjmp : ∀ a, i ≠ .jmp a)
    (s : State) : nextAddress i s = (s.pc.toNat + 1) % 256 := by
  cases i with
  | je a => exact absurd rfl (hje a)
  | jmp a => exact absurd rfl (hjmp a)
  | hlt | reserved => cases hexec
  | _ => rfl

/-- Settles O19: the effect of an instruction names the one piece of state it writes, and every instruction but a jump goes on at the next address. -/
theorem handlerWritesOnlyItsOwnState : Obligations.HandlerWritesOnlyItsOwnState := by
  refine ⟨fun v w => decode_mnemonic_eq_of_op_eq, fun i s t hexec ht => ?_⟩
  obtain rfl := eq_apply_effectOf ht
  refine ⟨?_, fun hcmp => Effect.apply_flag (by simpa using hcmp) s, Effect.apply_run (by simpa using hexec) s,
    fun hje hjmp => ?_⟩
  · simpa using (effectOf i s).unchanged_apply s
  · rw [pc_apply_effectOf, nextAddress_of_not_jump hexec hje hjmp]

/-- Settles O20: the effect of the fetched instruction takes `pc` to R134's address, which the fetch has no part in. -/
theorem incrementThenJumpReplaces : Obligations.IncrementThenJumpReplaces := by
  intro s t ht _
  rw [(step_eq_apply ht).2, pc_apply_effectOf, nextAddress_fetch]

/-! ## The trace -/

theorem Effect.apply_trace_of_end {e : Effect} (h : e.executes = false) (s : State) : (e.apply s).trace = s.trace := by
  cases e with
  | halt | raiseIllegalOpcode => rfl
  | _ => cases h

/-- Settles O33: an executed effect puts the event of the fetched state on the trace, the end of a run puts nothing on it. -/
theorem traceRecordsExecutedInstructions : Obligations.TraceRecordsExecutedInstructions := by
  intro s t ht
  rw [(step_eq_apply ht).2, State.traceOutput, State.traceOutput]
  split
  · next hexec =>
    rw [Effect.apply_trace ((executes_effectOf _ _).trans hexec), List.reverse_cons]
    rfl
  · next hend =>
    rw [Effect.apply_trace_of_end ((executes_effectOf _ _).trans (Bool.eq_false_of_not_eq_true hend)), List.append_nil]
    rfl

/-- Settles O27: R80's step after the fetch is the meaning of the decoded instruction. -/
theorem stepRunsDecodedInstruction : Obligations.StepRunsDecodedInstruction := by
  rintro s i hrun rfl
  exact step_of_running hrun

end Sys2Proof.Machine
end

section
/-!
Runs that do not end, and what `run()` answers about those that do (spec/40_execution_cycle.md R87, R89).
-/

namespace Sys2Proof.Machine

/-! ## Runs without an end -/

/-- A Running machine at an executed word steps to a Running machine (R32). -/
theorem step_running_of_executes {s : State} (hrun : s.run = .running)
    (hword : (decode (s.ifetch s.pc)).executes = true) : ∃ t, step s = .next t ∧ t.run = .running := by
  obtain ⟨t, hnext, hkeep⟩ := exec_keeps_run hword s.fetch
  exact ⟨t, (step_of_running hrun).trans hnext, hkeep.trans hrun⟩

theorem executes_decode_ifetch {s : State} (hhlt : NoHltWord s) (hres : NoReservedWord s) (a : Addr) :
    (decode (s.ifetch a)).executes = true :=
  (executes_or_hlt_or_reserved _).resolve_right (not_or.2 ⟨hhlt a, hres a⟩)

theorem NoHltWord.of_imem_eq {s t : State} (h : NoHltWord s) (himem : t.imem = s.imem) : NoHltWord t :=
  fun a => ifetch_eq_of_imem_eq himem a ▸ h a

theorem NoReservedWord.of_imem_eq {s t : State} (h : NoReservedWord s) (himem : t.imem = s.imem) : NoReservedWord t :=
  fun a => ifetch_eq_of_imem_eq himem a ▸ h a

/-- Settles O34: the first step is that of an executed word, and leaves a Running machine with the same instruction memory. -/
theorem noHltWordNoEnd : Obligations.NoHltWordNoEnd := by
  intro s hrun hhlt hres n
  induction n generalizing s with
  | zero => exact ⟨[], s, rfl, .nil s, hrun⟩
  | succ n ih =>
    obtain ⟨u, first, hu⟩ := step_running_of_executes hrun (executes_decode_ifetch hhlt hres s.pc)
    have himem := step_imem first
    obtain ⟨is, t, hlen, rest, ht⟩ := ih u hu (hhlt.of_imem_eq himem) (hres.of_imem_eq himem)
    exact ⟨_, t, congrArg (· + 1) hlen, .cons first rest, ht⟩

/-! ## The answers of `run()` -/

theorem runEngine_halted {s : State} (h : s.run = .halted) (n : Nat) : runEngine n s = .success s := by
  unfold runEngine
  rw [h]

theorem runEngine_faulted {s : State} {r : FaultRecord} (h : s.run = .faulted r) (n : Nat) :
    runEngine n s = .failure r s := by
  unfold runEngine
  rw [h]

theorem runEngine_zero {s : State} (h : s.run = .running) : runEngine 0 s = .outOfFuel s := by
  rw [runEngine, h]

theorem runEngine_succ {s t : State} (h : step s = .next t) (n : Nat) : runEngine (n + 1) s = runEngine n t := by
  rw [runEngine, (step_next h).1, h]

/-- What an answer of `run()` with fuel `n` on the machine `s` says (R89): an execution from `s` to a machine whose run state is the one answered, of
length `n` when the fuel was used up. -/
def RunResult.MeansItsEnd (n : Nat) (s : State) : RunResult → Prop
  | .success t => t.run = .halted ∧ ∃ is, Run s is t
  | .failure r t => t.run = .faulted r ∧ ∃ is, Run s is t
  | .outOfFuel t => t.run = .running ∧ ∃ is, is.length = n ∧ Run s is t

theorem RunResult.MeansItsEnd.of_step {n : Nat} {s t : State} {result : RunResult} (first : step s = .next t)
    (h : result.MeansItsEnd n t) : result.MeansItsEnd (n + 1) s := by
  cases result with
  | success | failure =>
    obtain ⟨hend, is, rest⟩ := h
    exact ⟨hend, _, .cons first rest⟩
  | outOfFuel =>
    obtain ⟨hend, is, hlen, rest⟩ := h
    exact ⟨hend, _, congrArg (· + 1) hlen, .cons first rest⟩

theorem runEngine_meansItsEnd (n : Nat) (s : State) : (runEngine n s).MeansItsEnd n s := by
  cases h : s.run with
  | halted => rw [runEngine_halted h]; exact ⟨h, [], .nil s⟩
  | faulted r => rw [runEngine_faulted h]; exact ⟨h, [], .nil s⟩
  | running =>
    cases n with
    | zero => rw [runEngine_zero h]; exact ⟨h, [], rfl, .nil s⟩
    | succ n =>
      obtain ⟨t, first⟩ := stepExactlyWhileRunning.1 s h
      rw [runEngine_succ first]
      exact (runEngine_meansItsEnd n t).of_step first

/-- Settles O47: every answer means its end, by induction on the fuel, and an ended machine is answered at once. -/
theorem runResultMeansItsEnd : Obligations.RunResultMeansItsEnd := by
  refine ⟨fun n s t h => ?_, fun n s t r h => ?_, fun n s t h => ?_, fun n s h => runEngine_halted h n,
    fun n s r h => runEngine_faulted h n⟩
  all_goals
    have hend := runEngine_meansItsEnd n s
    rw [h] at hend
    exact hend

end Sys2Proof.Machine
end

section
/-!
The host's side (spec/40_execution_cycle.md R88, R90): the loads of the setup pass, and read-back and status after the run.
-/

namespace Sys2Proof.Machine

/-! ## Loads -/

theorem placeWords_eq_with_imem (words : List Word) (base : Nat) (s : State) :
    placeWords words base s = { s with imem := (placeWords words base s).imem } := by
  induction words generalizing base s with
  | nil => rfl
  | cons w words ih => exact ih (base + 1) (s.placeWord (BitVec.ofNat 8 base) w)

theorem placeWords_imem_wf (words : List Word) (base : Nat) {s : State} (h : s.imem.wf Config.imemSize = true) :
    (placeWords words base s).imem.wf Config.imemSize = true := by
  induction words generalizing base s with
  | nil => exact h
  | cons w words ih => exact ih (base + 1) (Memory.wf_write (Nat.le_refl 256) h _ w)

/-- Words within the 256 cells land at consecutive addresses, the first at `base` (R88). -/
theorem ifetch_placeWords {words : List Word} {base : Nat} (hbound : base + words.length ≤ 256) (s : State) (a : Addr) :
    (placeWords words base s).ifetch a =
      if base ≤ a.toNat then (words[a.toNat - base]?).getD (s.ifetch a) else s.ifetch a := by
  induction words generalizing base s with
  | nil => simp [placeWords]
  | cons w words ih =>
    rw [List.length_cons] at hbound
    have haddr : a = BitVec.ofNat 8 base ↔ a.toNat = base := by
      rw [← BitVec.toNat_inj, BitVec.toNat_ofNat, Nat.mod_eq_of_lt (by omega)]
    rw [placeWords, ih (by omega), State.ifetch_placeWord]
    simp only [haddr]
    rcases Nat.lt_trichotomy a.toNat base with hlt | heq | hgt
    · rw [if_neg (by omega), if_neg hlt.ne, if_neg (by omega)]
    · rw [if_neg (by omega), if_pos heq, if_pos heq.ge, heq, Nat.sub_self]
      rfl
    · have hnext : a.toNat - base = a.toNat - (base + 1) + 1 := by omega
      rw [if_pos (Nat.succ_le_of_lt hgt), if_neg hgt.ne', if_pos hgt.le, hnext, List.getElem?_cons_succ]

theorem load_of_inBounds {words : List Word} {base : Nat} {s : State} (hfresh : s.beforeFirstStep = true)
    (hbase : base < 256) (hbound : base + words.length ≤ 256) :
    load words base s = .loaded (placeWords words base s) := by
  rw [load, if_pos hfresh]
  exact if_pos ⟨hbase, hbound⟩

theorem load_of_outOfBounds {words : List Word} {base : Nat} {s : State} (hfresh : s.beforeFirstStep = true)
    (hout : 256 ≤ base ∨ 256 < base + words.length) : load words base s = .refused .outOfBounds := by
  rw [load, if_pos hfresh]
  exact if_neg fun ⟨hbase, hbound⟩ => hout.elim hbase.not_ge hbound.not_gt

/-- Settles O46: the load of words within bounds is `placeWords`, which writes the cells from `base` on and no other field. -/
theorem loadWritesConsecutiveWords : Obligations.LoadWritesConsecutiveWords := by
  refine ⟨fun words base s hfresh hout => load_of_outOfBounds hfresh hout, fun words base s hfresh hbase hbound => ?_⟩
  refine ⟨_, load_of_inBounds hfresh hbase hbound, ifetch_placeWords hbound s, ?_⟩
  rw [placeWords_eq_with_imem]
  exact ⟨rfl, rfl, rfl, rfl, rfl, rfl, rfl⟩

/-- Before the first step the invariant asks of instruction memory nothing but its canonical form. -/
theorem Inv.with_imem {s : State} {m : Memory} (hinv : Inv s) (hfresh : s.beforeFirstStep = true)
    (hm : m.wf Config.imemSize = true) : Inv { s with imem := m } := by
  obtain ⟨hrun, htrace⟩ := beforeFirstStep_iff.1 hfresh
  exact {
    imem_wf := hm
    dmem_wf := hinv.dmem_wf
    halted := fun h => nomatch hrun.symm.trans h
    faulted := fun _ h => nomatch hrun.symm.trans h
    traced := fun e he => absurd (htrace ▸ he) List.not_mem_nil
    fresh := fun _ => congrArg (fun u : State => { u with imem := m }) (hinv.fresh hfresh) }

/-- Settles O38: a load that is not refused comes before the first step and writes instruction memory only, which it keeps canonical. -/
theorem loadKeepsInvariant : Obligations.LoadKeepsInvariant := by
  intro words base s t hinv hload
  obtain ⟨hfresh, -, -, rfl⟩ := load_loaded hload
  rw [placeWords_eq_with_imem]
  exact hinv.with_imem hfresh (placeWords_imem_wf words base hinv.imem_wf)

/-! ## Read-back and status -/

theorem readBack_eq_none_iff {s : State} : s.readBack = none ↔ s.run = .running := by
  rw [State.readBack, ite_eq_left_iff, imp_iff_not nofun, not_not]

theorem readBack_eq_some {s : State} {b : ReadBack} (h : s.readBack = some b) :
    b = { x := s.x, pc := s.pc, ir := s.ir, flag := s.flag, dmem := s.dmem, run := s.run } := by
  rw [State.readBack, Option.ite_none_left_eq_some] at h
  exact (Option.some.inj h.2).symm

theorem statusCode_eq (s : State) : s.statusCode = if s.faultRecord.isSome then 1 else 0 := by
  unfold State.statusCode
  cases s.faultRecord <;> rfl

theorem faultRecord_isSome_iff {s : State} : s.faultRecord.isSome = true ↔ ∃ r, s.run = .faulted r := by
  unfold State.faultRecord
  cases s.run <;> simp

/-- Settles O48: read-back copies the fields of a machine that is not Running, and the status code says whether there is a record. -/
theorem hostReadsAfterTheEnd : Obligations.HostReadsAfterTheEnd := by
  refine ⟨fun s => readBack_eq_none_iff, fun s b hb => ?_, fun s => ?_⟩
  · rw [readBack_eq_some hb]
    exact ⟨rfl, rfl, rfl, rfl, rfl, rfl⟩
  · rw [statusCode_eq, ← not_exists, ← faultRecord_isSome_iff]
    split
    · next hrec => exact ⟨iff_of_true rfl hrec, iff_of_false nofun (not_not.2 hrec)⟩
    · next hrec => exact ⟨iff_of_false nofun hrec, iff_of_true rfl hrec⟩

end Sys2Proof.Machine
end

section
/-!
Opcodes read off a word's class, and canonical words as shifted fields (spec/30_encoding.md R62, R67 to R69).
-/

namespace Sys2Proof

/-- A word in the class of an opcode (R67) is that opcode's reading of its fields, whatever the ignored bits (R68). -/
theorem decode_of_and_opcodeMask {w : Word} {op : BitVec 5} (h : w &&& 0xF800 = op ++ 0#11) :
    decode w = instrOf op.toNat (decodeFields w) := by
  have hword : (decodeFields w).op ++ 0#11 = op ++ 0#11 := (and_usedMask w .z).symm.trans h
  have hop : (decodeFields w).op = op := by
    rw [← decodeFields_append_op (decodeFields w).op 0#11, hword, decodeFields_append_op]
  rw [decode, hop]

/-- The word of the RR format as R69 writes it: the opcode's word with the shifted register fields set in it. -/
theorem append_rr_eq_or (op : BitVec 5) (ra rb : RegIdx) :
    op ++ ra ++ rb ++ 0#5 = op ++ 0#11 ||| ra.setWidth 16 <<< 8 ||| rb.setWidth 16 <<< 5 := by
  refine BitVec.eq_of_getLsbD_eq fun i hi => ?_
  simp only [BitVec.getLsbD_or, BitVec.getLsbD_append, BitVec.getLsbD_shiftLeft, BitVec.getLsbD_setWidth]
  interval_cases i <;> simp

theorem encode_instrOf_rr {op : BitVec 5} (h : formatOf op.toNat = some .rr) (ra rb : RegIdx) :
    encode (instrOf op.toNat ⟨op, ra, rb, 0⟩) = some (op ++ 0#11 ||| ra.setWidth 16 <<< 8 ||| rb.setWidth 16 <<< 5) :=
  (encode_instrOf (F := ⟨op, ra, rb, 0⟩) (f := .rr) h).trans (congrArg some (append_rr_eq_or op ra rb))

end Sys2Proof
end

section
/-!
Mov, Add, Sub, And and Or (spec/41_move_alu.md R101 to R105): each has the effect of writing `x[ra]`, so the frame, the next address and the trace event are
those of any register write, and what is left to each is the arithmetic of its result.
-/

namespace Sys2Proof.Machine

/-- An instruction whose effect is to write a register completes with the value in it, and is otherwise sequential. -/
theorem exec_of_effectOf_eq_setReg {i : Instr} {s : State} {r : RegIdx} {v : Word} (h : effectOf i s = .setReg r v) :
    ∃ t, exec i s = .next t ∧ t.readReg r = v ∧ Unchanged (some r) none s t ∧ Sequential s t := by
  refine ⟨s.beginExecute.writeReg r v, ?_, State.readReg_writeReg_self _ r v, unchanged_writeReg s r v,
    sequential_writeReg s r v⟩
  rw [exec_eq_apply_effectOf, h, Effect.apply]

/-- The difference of two words is that of the integers, brought into range by the non-negative remainder (R7, R103). -/
theorem toNat_sub_eq_emod (a b : Word) : ((a - b).toNat : Int) = ((a.toNat : Int) - (b.toNat : Int)) % 65536 := by
  rw [BitVec.toNat_sub]
  omega

/-- Settles O1: the class of opcode 0, the canonical word, and the effect that writes `x[rb]`. -/
theorem movCopiesRegister : Obligations.MovCopiesRegister :=
  ⟨fun _ hw => decode_of_and_opcodeMask (op := 0) hw,
    encode_instrOf_rr (op := 0) rfl,
    fun _ _ _ => exec_of_effectOf_eq_setReg rfl⟩

/-- Settles O2: the effect writes the sum of the words, which is the sum modulo 2^16. -/
theorem addWrapsModulo65536 : Obligations.AddWrapsModulo65536 := by
  refine ⟨fun _ hw => decode_of_and_opcodeMask (op := 1) hw,
    encode_instrOf_rr (op := 1) rfl, fun ra rb s => ?_⟩
  obtain ⟨t, hnext, hsum, hframe, hseq⟩ := exec_of_effectOf_eq_setReg (i := .add ra rb) (s := s) rfl
  exact ⟨t, hnext, by rw [hsum, BitVec.toNat_add], hframe, hseq⟩

/-- Settles O3: the effect writes the difference of the words, which is the integer difference modulo 2^16. -/
theorem subWrapsModulo65536 : Obligations.SubWrapsModulo65536 := by
  refine ⟨fun _ hw => decode_of_and_opcodeMask (op := 2) hw,
    encode_instrOf_rr (op := 2) rfl, fun ra rb s => ?_⟩
  obtain ⟨t, hnext, hdiff, hframe, hseq⟩ := exec_of_effectOf_eq_setReg (i := .sub ra rb) (s := s) rfl
  exact ⟨t, hnext, by rw [hdiff, toNat_sub_eq_emod], hframe, hseq⟩

/-- Settles O4: the effect writes the conjunction of the words, whose bits are those of the operands joined by and. -/
theorem andIsBitwise : Obligations.AndIsBitwise := by
  refine ⟨fun _ hw => decode_of_and_opcodeMask (op := 3) hw,
    encode_instrOf_rr (op := 3) rfl, fun ra rb s => ?_⟩
  obtain ⟨t, hnext, hand, hframe, hseq⟩ := exec_of_effectOf_eq_setReg (i := .and ra rb) (s := s) rfl
  exact ⟨t, hnext, fun i _ => by rw [hand, BitVec.getLsbD_and], hframe, hseq⟩

/-- Settles O5: the effect writes the disjunction of the words, whose bits are those of the operands joined by or. -/
theorem orIsBitwise : Obligations.OrIsBitwise := by
  refine ⟨fun _ hw => decode_of_and_opcodeMask (op := 4) hw,
    encode_instrOf_rr (op := 4) rfl, fun ra rb s => ?_⟩
  obtain ⟨t, hnext, hor, hframe, hseq⟩ := exec_of_effectOf_eq_setReg (i := .or ra rb) (s := s) rfl
  exact ⟨t, hnext, fun i _ => by rw [hor, BitVec.getLsbD_or], hframe, hseq⟩

end Sys2Proof.Machine
end

section
/-!
Canonical words of the R format as shifted fields (spec/30_encoding.md R63, R67, R70).
-/

namespace Sys2Proof

/-- The word of the R format as R70 writes it: the opcode's word with the shifted register field set in it. -/
theorem append_r_eq_or (op : BitVec 5) (ra : RegIdx) : op ++ ra ++ 0#8 = op ++ 0#11 ||| ra.setWidth 16 <<< 8 := by
  refine BitVec.eq_of_getLsbD_eq fun i hi => ?_
  simp only [BitVec.getLsbD_or, BitVec.getLsbD_append, BitVec.getLsbD_shiftLeft, BitVec.getLsbD_setWidth]
  interval_cases i <;> simp

theorem encode_instrOf_r {op : BitVec 5} (h : formatOf op.toNat = some .r) (ra : RegIdx) :
    encode (instrOf op.toNat ⟨op, ra, 0, 0⟩) = some (op ++ 0#11 ||| ra.setWidth 16 <<< 8) :=
  (encode_instrOf (F := ⟨op, ra, 0, 0⟩) (f := .r) h).trans (congrArg some (append_r_eq_or op ra))

end Sys2Proof
end

section
/-!
Sl, Sr and Sra (spec/42_shift.md R111 to R113): like the arithmetic instructions each has the effect of writing `x[ra]`, and what is left is what a shift by
one bit does to a word, as a number and bit by bit.
-/

namespace Sys2Proof.Machine

/-! ## Shifts of a word by one bit -/

theorem toNat_shiftLeft_one (v : Word) : (v <<< 1).toNat = v.toNat * 2 % 65536 := by
  rw [BitVec.toNat_shiftLeft, Nat.shiftLeft_eq, pow_one]

theorem shiftLeft_one_eq_add_self (v : Word) : v <<< 1 = v + v :=
  BitVec.eq_of_toNat_eq (by rw [toNat_shiftLeft_one, BitVec.toNat_add, Nat.mul_two])

theorem getLsbD_shiftLeft_one_succ (v : Word) {i : Nat} (hi : i < 15) : (v <<< 1).getLsbD (i + 1) = v.getLsbD i := by
  have hbound : i + 1 < 16 := by omega
  have hpos : ¬ i + 1 < 1 := by omega
  rw [BitVec.getLsbD_shiftLeft, decide_eq_true hbound, decide_eq_false hpos, Bool.not_false, Bool.true_and, Bool.true_and,
    Nat.add_sub_cancel]

theorem toNat_ushiftRight_one (v : Word) : (v >>> 1).toNat = v.toNat / 2 := by
  rw [BitVec.toNat_ushiftRight, Nat.shiftRight_eq_div_pow, pow_one]

theorem getLsbD_ushiftRight_one (v : Word) (i : Nat) : (v >>> 1).getLsbD i = v.getLsbD (i + 1) := by
  rw [BitVec.getLsbD_ushiftRight, Nat.add_comm]

/-- R113's pseudocode is the arithmetic shift: the sign bit is kept and copied into the bit below it. -/
theorem and_signBit_or_ushiftRight_one (v : Word) : v &&& 0x8000 ||| v >>> 1 = v.sshiftRight 1 := by
  refine BitVec.eq_of_getLsbD_eq fun i hi => ?_
  rw [BitVec.getLsbD_or, BitVec.getLsbD_and, getLsbD_ushiftRight_one, BitVec.getLsbD_sshiftRight]
  interval_cases i <;> simp [BitVec.msb_eq_getLsbD_last]

theorem getLsbD_sshiftRight_one_top (v : Word) : (v.sshiftRight 1).getLsbD 15 = v.getLsbD 15 := by
  rw [BitVec.getLsbD_sshiftRight, BitVec.msb_eq_getLsbD_last]
  rfl

theorem getLsbD_sshiftRight_one (v : Word) {i : Nat} (hi : i < 15) : (v.sshiftRight 1).getLsbD i = v.getLsbD (i + 1) := by
  have hlt : ¬ 16 ≤ i := by omega
  have hbound : 1 + i < 16 := by omega
  rw [BitVec.getLsbD_sshiftRight, if_pos hbound, decide_eq_false hlt, Bool.not_false, Bool.true_and, Nat.add_comm]

/-! ## The instructions -/

/-- Settles O6: the effect writes the word shifted left, which is twice the word modulo 2^16. -/
theorem slShiftsLeftByOne : Obligations.SlShiftsLeftByOne := by
  refine ⟨fun _ hw => decode_of_and_opcodeMask (op := 5) hw, encode_instrOf_r (op := 5) rfl, fun ra s => ?_⟩
  obtain ⟨t, hnext, hsl, hframe, hseq⟩ := exec_of_effectOf_eq_setReg (i := .sl ra) (s := s) rfl
  refine ⟨t, hnext, ?_, ?_, fun i hi => ?_, hframe, hseq⟩
  · rw [hsl, toNat_shiftLeft_one]
  · rw [hsl, BitVec.getLsbD_shiftLeft]
    rfl
  · rw [hsl, getLsbD_shiftLeft_one_succ _ hi]

/-- Settles O7: the effect writes the word shifted right with a zero coming in, which is half the word, rounded down. -/
theorem srShiftsRightLogicalByOne : Obligations.SrShiftsRightLogicalByOne := by
  refine ⟨fun _ hw => decode_of_and_opcodeMask (op := 6) hw, encode_instrOf_r (op := 6) rfl, fun ra s => ?_⟩
  obtain ⟨t, hnext, hsr, hframe, hseq⟩ := exec_of_effectOf_eq_setReg (i := .sr ra) (s := s) rfl
  refine ⟨t, hnext, ?_, ?_, fun i _ => ?_, hframe, hseq⟩
  · rw [hsr, toNat_ushiftRight_one]
  · rw [hsr, getLsbD_ushiftRight_one, BitVec.getLsbD_of_ge _ _ (Nat.le_refl 16)]
  · rw [hsr, getLsbD_ushiftRight_one]

/-- Settles O8: the effect writes the word shifted right with its sign bit kept. -/
theorem sraShiftsRightArithmeticByOne : Obligations.SraShiftsRightArithmeticByOne := by
  refine ⟨fun _ hw => decode_of_and_opcodeMask (op := 7) hw, encode_instrOf_r (op := 7) rfl, fun ra s => ?_⟩
  obtain ⟨t, hnext, hsra, hframe, hseq⟩ := exec_of_effectOf_eq_setReg (i := .sra ra) (s := s) rfl
  rw [and_signBit_or_ushiftRight_one] at hsra
  refine ⟨t, hnext, ?_, fun i hi => ?_, hframe, hseq⟩
  · rw [hsra, getLsbD_sshiftRight_one_top]
  · rw [hsra, getLsbD_sshiftRight_one _ hi]

/-- Settles O26: a word shifted left by one bit is its sum with itself, so the two instructions have one effect. -/
theorem slEqualsAddToItself : Obligations.SlEqualsAddToItself := by
  intro ra s
  have heffect : effectOf (.sl ra) s = effectOf (.add ra ra) s := by
    rw [effectOf, effectOf, shiftLeft_one_eq_add_self]
  rw [exec_eq_apply_effectOf, exec_eq_apply_effectOf, heffect]

end Sys2Proof.Machine
end

section
/-!
Canonical words of the RI format as an opcode's word with fields set in it (spec/30_encoding.md R63, R67, R71).
-/

namespace Sys2Proof

/-- The word of the RI format as R71 writes it: the opcode's word with the shifted register field and the byte set in it. -/
theorem append_ri_eq_or (op : BitVec 5) (ra : RegIdx) (imm8 : Imm) :
    op ++ ra ++ imm8 = op ++ 0#11 ||| ra.setWidth 16 <<< 8 ||| imm8.setWidth 16 := by
  refine BitVec.eq_of_getLsbD_eq fun i hi => ?_
  simp only [BitVec.getLsbD_or, BitVec.getLsbD_append, BitVec.getLsbD_shiftLeft, BitVec.getLsbD_setWidth]
  interval_cases i <;> simp

theorem encode_instrOf_ri {op : BitVec 5} (h : formatOf op.toNat = some .ri) (ra : RegIdx) (imm8 : Imm) :
    encode (instrOf op.toNat ⟨op, ra, 0, imm8⟩) = some (op ++ 0#11 ||| ra.setWidth 16 <<< 8 ||| imm8.setWidth 16) :=
  (encode_instrOf (F := ⟨op, ra, 0, imm8⟩) (f := .ri) h).trans (congrArg some (append_ri_eq_or op ra imm8))

end Sys2Proof
end

section
/-!
Ldl and Ldh (spec/43_load_immediate.md R120 to R122): each has the effect of writing `x[ra]`, with a word made of one byte of the old word and the immediate.
A word is its two bytes, so the pair loads any constant.
-/

namespace Sys2Proof.Machine

/-! ## The two bytes of a word -/

theorem eq_of_bytes_eq {v w : Word} (hhigh : v.extractLsb' 8 8 = w.extractLsb' 8 8)
    (hlow : v.extractLsb' 0 8 = w.extractLsb' 0 8) : v = w := by
  rw [← BitVec.extractLsb'_append_extractLsb' (w := 8) (len := 8) (x := v), hhigh, hlow]
  exact BitVec.extractLsb'_append_extractLsb'

/-- R121's mask and insert are a concatenation of bytes. -/
theorem withLowByte_eq_append (v : Word) (imm8 : Imm) : withLowByte v imm8 = v.extractLsb' 8 8 ++ imm8 := by
  refine BitVec.eq_of_getLsbD_eq fun i hi => ?_
  simp only [withLowByte, BitVec.getLsbD_or, BitVec.getLsbD_and, BitVec.getLsbD_append, BitVec.getLsbD_setWidth,
    BitVec.getLsbD_extractLsb']
  interval_cases i <;> simp

/-- R122's shift and insert are a concatenation of bytes. -/
theorem withHighByte_eq_append (v : Word) (imm8 : Imm) : withHighByte v imm8 = imm8 ++ v.extractLsb' 0 8 := by
  refine BitVec.eq_of_getLsbD_eq fun i hi => ?_
  simp only [withHighByte, BitVec.getLsbD_or, BitVec.getLsbD_and, BitVec.getLsbD_append, BitVec.getLsbD_shiftLeft,
    BitVec.getLsbD_setWidth, BitVec.getLsbD_extractLsb']
  interval_cases i <;> simp

/-! ## The instructions -/

/-- Settles O10: the effect writes the old high byte followed by the immediate. -/
theorem ldlReplacesLowByte : Obligations.LdlReplacesLowByte := by
  refine ⟨fun _ hw => decode_of_and_opcodeMask (op := 8) hw, encode_instrOf_ri (op := 8) rfl, fun ra imm8 s => ?_⟩
  obtain ⟨t, hnext, hldl, hframe, hseq⟩ := exec_of_effectOf_eq_setReg (i := .ldl ra imm8) (s := s) rfl
  rw [withLowByte_eq_append] at hldl
  refine ⟨t, hnext, ?_, ?_, hframe, hseq⟩
  · rw [hldl, BitVec.extractLsb'_append_eq_right]
  · rw [hldl, BitVec.extractLsb'_append_eq_left]

/-- Settles O11: the effect writes the immediate followed by the old low byte. -/
theorem ldhReplacesHighByte : Obligations.LdhReplacesHighByte := by
  refine ⟨fun _ hw => decode_of_and_opcodeMask (op := 9) hw, encode_instrOf_ri (op := 9) rfl, fun ra imm8 s => ?_⟩
  obtain ⟨t, hnext, hldh, hframe, hseq⟩ := exec_of_effectOf_eq_setReg (i := .ldh ra imm8) (s := s) rfl
  rw [withHighByte_eq_append] at hldh
  refine ⟨t, hnext, ?_, ?_, hframe, hseq⟩
  · rw [hldh, BitVec.extractLsb'_append_eq_left]
  · rw [hldh, BitVec.extractLsb'_append_eq_right]

/-- Settles O25: in either order the second instruction writes its own byte and keeps the one the first has written. -/
theorem ldhLdlPairLoadsConstant : Obligations.LdhLdlPairLoadsConstant := by
  obtain ⟨-, -, ldl⟩ := ldlReplacesLowByte
  obtain ⟨-, -, ldh⟩ := ldhReplacesHighByte
  refine fun r v s => ⟨?_, ?_⟩
  · obtain ⟨t, hfirst, hhigh, -⟩ := ldh r (v.extractLsb' 8 8) s
    obtain ⟨u, hsecond, hlow, hkept, -⟩ := ldl r (v.extractLsb' 0 8) t
    exact ⟨t, u, hfirst, hsecond, eq_of_bytes_eq (hkept.trans hhigh) hlow⟩
  · obtain ⟨t, hfirst, hlow, -⟩ := ldl r (v.extractLsb' 0 8) s
    obtain ⟨u, hsecond, hhigh, hkept, -⟩ := ldh r (v.extractLsb' 8 8) t
    exact ⟨t, u, hfirst, hsecond, eq_of_bytes_eq hhigh (hkept.trans hlow)⟩

end Sys2Proof.Machine
end

section
/-!
Canonical words of the A format as an opcode's word with the address set in it (spec/30_encoding.md R63, R67, R72).
-/

namespace Sys2Proof

/-- The word of the A format as R72 writes it: an RI word whose register field is ignored and 0. -/
theorem append_a_eq_or (op : BitVec 5) (addr8 : Addr) : op ++ 0#3 ++ addr8 = op ++ 0#11 ||| addr8.setWidth 16 := by
  have hzero : (0#3).setWidth 16 <<< 8 = 0#16 := by decide
  rw [append_ri_eq_or, hzero, BitVec.or_zero]

theorem encode_instrOf_a {op : BitVec 5} (h : formatOf op.toNat = some .a) (addr8 : Addr) :
    encode (instrOf op.toNat ⟨op, 0, 0, addr8⟩) = some (op ++ 0#11 ||| addr8.setWidth 16) :=
  (encode_instrOf (F := ⟨op, 0, 0, addr8⟩) (f := .a) h).trans (congrArg some (append_a_eq_or op addr8))

end Sys2Proof
end

section
/-!
Cmp, Je and Jmp (spec/44_compare_branch.md R130 to R133): a Cmp has the effect of writing the flag, a Je or Jmp that of a jump, taken when the flag is 1 or
always. None of them writes a register or a data cell.
-/

namespace Sys2Proof.Machine

/-- R131's flag is 1 exactly when the two words are the same number. -/
theorem equalFlag_eq_true_iff (a b : Word) : equalFlag a b = true ↔ a.toNat = b.toNat := by
  rw [equalFlag, decide_eq_true_iff, BitVec.toNat_inj]

/-- An instruction whose effect is to write the flag completes with the value in it, and goes on at the incremented address. -/
theorem exec_of_effectOf_eq_setFlag {i : Instr} {s : State} {b : Bool} (h : effectOf i s = .setFlag b) :
    ∃ t, exec i s = .next t ∧ t.flag = b ∧ t.pc.toNat = (s.pc.toNat + 1) % 256 ∧ t.run = s.run ∧
      t.trace = s.traceEvent :: s.trace ∧ Unchanged none none s t := by
  refine ⟨s.beginExecute.setFlag b, ?_, State.setFlag_flag _ b, toNat_increment s.pc, rfl, rfl, unchanged_setFlag s b⟩
  rw [exec_eq_apply_effectOf, h, Effect.apply]

/-- An instruction whose effect is a jump completes at the target if the jump is taken and at the incremented address if not, and keeps the flag. -/
theorem exec_of_effectOf_eq_jump {i : Instr} {s : State} {taken : Bool} {target : Addr}
    (h : effectOf i s = .jump taken target) :
    ∃ t, exec i s = .next t ∧ t.pc = (if taken then target else s.pc + 1) ∧ t.flag = s.flag ∧ t.run = s.run ∧
      t.trace = s.traceEvent :: s.trace ∧ Unchanged none none s t := by
  refine ⟨s.beginExecute.jumpIf taken target, ?_, State.jumpIf_pc _ taken target, rfl, rfl, rfl,
    unchanged_jumpIf s taken target⟩
  rw [exec_eq_apply_effectOf, h, Effect.apply]

/-- Settles O12: the effect writes the flag with the comparison of the words, which are equal exactly when their numbers are. -/
theorem cmpSetsFlagOnEquality : Obligations.CmpSetsFlagOnEquality := by
  refine ⟨fun _ hw => decode_of_and_opcodeMask (op := 10) hw, encode_instrOf_rr (op := 10) rfl, fun ra rb s => ?_⟩
  obtain ⟨t, hnext, hflag, hrest⟩ := exec_of_effectOf_eq_setFlag (i := .cmp ra rb) (s := s) rfl
  exact ⟨t, hnext, by rw [hflag, equalFlag_eq_true_iff], hrest⟩

/-- Settles O13: the effect is a jump that is taken when the flag is 1. -/
theorem jeJumpsWhenFlagIsOne : Obligations.JeJumpsWhenFlagIsOne := by
  refine ⟨fun _ hw => decode_of_and_opcodeMask (op := 11) hw, encode_instrOf_a (op := 11) rfl, fun addr8 s => ?_⟩
  obtain ⟨t, hnext, hpc, hrest⟩ := exec_of_effectOf_eq_jump (i := .je addr8) (s := s) rfl
  refine ⟨t, hnext, fun hset => ?_, fun hclear => ?_, hrest⟩
  · rw [hpc, if_pos hset]
  · rw [hpc, if_neg (Bool.eq_false_iff.1 hclear), toNat_increment]

/-- Settles O14: the effect is a jump that is taken whatever the flag is. -/
theorem jmpAlwaysJumps : Obligations.JmpAlwaysJumps := by
  refine ⟨fun _ hw => decode_of_and_opcodeMask (op := 12) hw, encode_instrOf_a (op := 12) rfl, fun addr8 s => ?_⟩
  obtain ⟨t, hnext, hpc, hrest⟩ := exec_of_effectOf_eq_jump (i := .jmp addr8) (s := s) rfl
  exact ⟨t, hnext, by rw [hpc, if_pos rfl], hrest⟩

end Sys2Proof.Machine
end

section
/-!
Ld and St (spec/45_load_store.md R140 to R142): an Ld has the effect of writing `x[ra]`, which leaves data memory as it is; an St has the effect of writing one
data cell, which leaves every register as it is. Their words have the fields of the RI format, with the address where an immediate would stand.
-/

namespace Sys2Proof.Machine

/-- An instruction whose effect is to write a data cell completes with the word in it, and is otherwise sequential. -/
theorem exec_of_effectOf_eq_setCell {i : Instr} {s : State} {a : Addr} {v : Word} (h : effectOf i s = .setCell a v) :
    ∃ t, exec i s = .next t ∧ t.memRead a = v ∧ Unchanged none (some a) s t ∧ Sequential s t := by
  refine ⟨s.beginExecute.memWrite a v, ?_, State.memRead_memWrite_self _ a v, unchanged_memWrite s a v,
    sequential_memWrite s a v⟩
  rw [exec_eq_apply_effectOf, h, Effect.apply]

/-- Settles O15: the effect writes the register with the data cell's word, and an Ld stores to no cell (O22). -/
theorem ldReadsDataMemory : Obligations.LdReadsDataMemory := by
  obtain ⟨accesses, -⟩ := accessesTouchOneCell
  refine ⟨fun _ hw => decode_of_and_opcodeMask (op := 13) hw, encode_instrOf_ri (op := 13) rfl, fun ra addr8 s => ?_⟩
  obtain ⟨t, hnext, hld, hrest⟩ := exec_of_effectOf_eq_setReg (i := .ld ra addr8) (s := s) rfl
  obtain ⟨hdmem, -⟩ := accesses (.ld ra addr8) s t hnext
  exact ⟨t, hnext, hld, hdmem rfl, hrest⟩

/-- Settles O16: the class of opcode 14, the canonical word, and the effect that writes the data cell with the register's word. -/
theorem stWritesOneDataCell : Obligations.StWritesOneDataCell :=
  ⟨fun _ hw => decode_of_and_opcodeMask (op := 14) hw,
    encode_instrOf_ri (op := 14) rfl,
    fun _ _ _ => exec_of_effectOf_eq_setCell rfl⟩

end Sys2Proof.Machine
end

section
/-!
The opcode field of a word as a number (spec/30_encoding.md R62), for the classes given as ranges of words.
-/

namespace Sys2Proof

theorem op_decodeFields_toNat (w : Word) : (decodeFields w).op.toNat = w.toNat / 2048 := by
  rw [decodeFields, BitVec.extractLsb'_toNat, Nat.shiftRight_eq_div_pow]
  omega

end Sys2Proof
end

section
/-!
Hlt and the reserved words (spec/46_halt_reserved.md R151, R152): the two instructions that end a run, each of which changes the run state only. A fault has
no other source than a reserved word, and no step puts one into instruction memory.
-/

namespace Sys2Proof.Machine

/-! ## Hlt -/

theorem step_hlt {s : State} (hrun : s.run = .running) (hword : decode (s.ifetch s.pc) = .hlt) :
    step s = .next s.fetch.halt := by
  rw [step_of_running hrun, hword, exec_hlt]

/-- Settles O17: the range is that of opcode 15, and a step at such a word is the fetch followed by the halt. -/
theorem hltEndsTheRun : Obligations.HltEndsTheRun := by
  refine ⟨fun w hlow hhigh => decode_eq_hlt ?_, encode_instrOf (F := ⟨15, 0, 0, 0⟩) (f := .z) rfl, exec_hlt,
    fun s => step_hlt⟩
  rw [op_decodeFields_toNat]
  omega

/-! ## Reserved words -/

theorem step_reserved {s : State} (hrun : s.run = .running) (hword : decode (s.ifetch s.pc) = .reserved) :
    step s = .next s.fetch.raiseIllegalOpcode := by
  rw [step_of_running hrun, hword, exec_reserved]

theorem statusCode_of_faulted {s : State} {r : FaultRecord} (h : s.run = .faulted r) : s.statusCode = 1 := by
  rw [statusCode_eq, if_pos (faultRecord_isSome_iff.2 ⟨r, h⟩)]

/-- Settles O18: the range is that of the opcodes from 16 up, and a step at such a word is the fetch followed by the exception, whose record gives the
status code. -/
theorem reservedRaisesIllegalOpcode : Obligations.ReservedRaisesIllegalOpcode := by
  refine ⟨fun w hlow => decode_eq_reserved ?_, exec_reserved, fun s hrun hword => ?_⟩
  · rw [op_decodeFields_toNat]
    omega
  · exact ⟨_, step_reserved hrun hword, rfl, statusCode_of_faulted (State.raiseIllegalOpcode_run s.fetch)⟩

/-! ## Runs without a fault -/

/-- The one way into Faulted is a step at a reserved word (R160). -/
theorem step_not_faulted {s t : State} (h : step s = .next t) (hword : decode (s.ifetch s.pc) ≠ .reserved)
    (r : FaultRecord) : t.run ≠ .faulted r := by
  obtain ⟨-, -, -, hfaulted⟩ := runStateTransitions s t h
  exact fun hr => hword (decode_eq_reserved (hfaulted.1 ⟨r, hr⟩))

/-- Settles O35: a machine that is not Faulted, with no reserved word in instruction memory, steps to one alike, since a step does not write instruction
memory. -/
theorem noReservedWordNoFault : Obligations.NoReservedWordNoFault := by
  intro s hs hres is t hrun
  have hinv : (∀ r, t.run ≠ .faulted r) ∧ NoReservedWord t :=
    hrun.invariant (P := fun u => (∀ r, u.run ≠ .faulted r) ∧ NoReservedWord u) (allowed := fun _ => True)
      (fun u _ first _ ⟨_, hu⟩ => ⟨step_not_faulted first (hu u.pc), hu.of_imem_eq (step_imem first)⟩)
      (fun _ _ => trivial) ⟨hs, hres⟩
  exact hinv.1

end Sys2Proof.Machine
end

section
/-!
The two's-complement reading of a word shifted right by Sra (spec/42_shift.md R113).
-/

namespace Sys2Proof.Machine

/-- The arithmetic shift by one bit is the division by 2 that rounds toward minus infinity. -/
theorem toInt_sshiftRight_one (v : Word) : (v.sshiftRight 1).toInt = v.toInt / 2 := by
  rw [BitVec.toInt_sshiftRight, Int.shiftRight_eq_div_pow, pow_one, Nat.cast_ofNat]

/-- Settles O9: the effect writes the word arithmetically shifted, whose value is the rounded half. -/
theorem sraHalvesSignedValue : Obligations.SraHalvesSignedValue := by
  intro ra s
  obtain ⟨t, hnext, hsra, -⟩ := exec_of_effectOf_eq_setReg (i := .sra ra) (s := s) rfl
  rw [and_signBit_or_ushiftRight_one] at hsra
  have hhalf : (t.readReg ra).toInt = (s.readReg ra).toInt / 2 := by rw [hsra, toInt_sshiftRight_one]
  exact ⟨t, hnext, by omega, by omega⟩

end Sys2Proof.Machine
end

section
/-!
The reset state's values (spec/70_reset_and_hazards.md R180, R181; spec/10_state.md R34).
-/

namespace Sys2Proof.Machine

/-- Settles O45: both memories list no cell, so every cell reads as an unlisted one, and a machine that is not Faulted has status code 0. -/
theorem resetValuesAreZero : Obligations.ResetValuesAreZero := by
  obtain ⟨-, -, hstatus⟩ := hostReadsAfterTheEnd
  obtain ⟨-, hzero⟩ := hstatus State.reset
  have hrun : State.reset.run = .running := rfl
  have hcode : State.reset.statusCode = 0 := hzero.2 fun _ hfaulted => nomatch hrun.symm.trans hfaulted
  exact ⟨State.readReg_reset, rfl, rfl, rfl, Memory.read_nil, Memory.read_nil, hrun, hcode⟩

end Sys2Proof.Machine
end

section
/-!
Words of table E and the words beside it (spec/95_test_vectors.md), against the decoder.
-/

namespace Sys2Proof

/-- Settles O44: the decoder is run on the ten words. -/
theorem decodesWordsOfTheSpec : Obligations.DecodesWordsOfTheSpec := by
  unfold Obligations.DecodesWordsOfTheSpec
  decide

end Sys2Proof
end
